-- ==== Sys2Proof/Word.lean ====
section
/-! DEFINITION. The word types of the block (spec/00_scope.md R9, R12; spec/10_state.md R20, R24, R26).

Every value is unsigned; no value of this hardware is signed (R12). -/

namespace Sys2Proof

/-- One byte: a general register, a memory cell, an immediate `kk`, a timer (R9). -/
abbrev Byte := BitVec 8

/-- One 16-bit word: an instruction word, `I`, `pc`, an entry of the return stack (R9). -/
abbrev Word := BitVec 16

/-- The 12-bit address immediate `nnn` (R61). -/
abbrev Addr12 := BitVec 12

/-- The number of a general register. It comes from a 4-bit field, so it is always in range (R20, R62). -/
abbrev RegIdx := Fin 16

/-- The register `VF = V[15]`, the carry, borrow and collision flag (R22). -/
abbrev regF : RegIdx := 15

end Sys2Proof
end

