-- ==== Sys2Proof/Syntax.lean ====
section
/-! DEFINITION. The syntax of the 32 instructions: one constructor per row of spec/opcode_table.json, in the
table's order (spec/30_encoding.md R60 to R63), and the operand texts of R79. -/

namespace Sys2Proof

/-- The 32 instructions (R63). Operands are the decoded fields of R61. `shr` and `shl` keep the `y` field, which the
word encodes and the instruction never reads (R104, R106; DESIGN CHOICE, log entry 17). -/
inductive Instr where
  /-- `00E0` CLS (R117). -/
  | cls
  /-- `00EE` RET (R84). -/
  | ret
  /-- `1nnn` JP nnn (R85). -/
  | jp (nnn : Addr12)
  /-- `2nnn` CALL nnn (R86). -/
  | call (nnn : Addr12)
  /-- `3xkk` SE Vx, kk (R89). -/
  | seImm (x : RegIdx) (kk : Byte)
  /-- `4xkk` SNE Vx, kk (R90). -/
  | sneImm (x : RegIdx) (kk : Byte)
  /-- `5xy0` SE Vx, Vy (R91). -/
  | seReg (x y : RegIdx)
  /-- `6xkk` LD Vx, kk (R96). -/
  | ldImm (x : RegIdx) (kk : Byte)
  /-- `7xkk` ADD Vx, kk (R97). -/
  | addImm (x : RegIdx) (kk : Byte)
  /-- `8xy0` LD Vx, Vy (R98). -/
  | ldReg (x y : RegIdx)
  /-- `8xy1` OR Vx, Vy (R99). -/
  | orReg (x y : RegIdx)
  /-- `8xy2` AND Vx, Vy (R100). -/
  | andReg (x y : RegIdx)
  /-- `8xy3` XOR Vx, Vy (R101). -/
  | xorReg (x y : RegIdx)
  /-- `8xy4` ADD Vx, Vy (R102). -/
  | addReg (x y : RegIdx)
  /-- `8xy5` SUB Vx, Vy (R103). -/
  | sub (x y : RegIdx)
  /-- `8xy6` SHR Vx; `y` is encoded and ignored (R104). -/
  | shr (x y : RegIdx)
  /-- `8xy7` SUBN Vx, Vy (R105). -/
  | subn (x y : RegIdx)
  /-- `8xyE` SHL Vx; `y` is encoded and ignored (R106). -/
  | shl (x y : RegIdx)
  /-- `9xy0` SNE Vx, Vy (R92). -/
  | sneReg (x y : RegIdx)
  /-- `Annn` LD I, nnn (R108). -/
  | ldI (nnn : Addr12)
  /-- `Bnnn` JP V0, nnn (R87). -/
  | jpV0 (nnn : Addr12)
  /-- `Cxkk` RND Vx, kk (R107). -/
  | rnd (x : RegIdx) (kk : Byte)
  /-- `Dxyn` DRW Vx, Vy, n; `n` is the number of sprite rows, 0 to 15 (R118). -/
  | drw (x y : RegIdx) (n : Fin 16)
  /-- `Ex9E` SKP Vx (R93). -/
  | skp (x : RegIdx)
  /-- `ExA1` SKNP Vx (R94). -/
  | sknp (x : RegIdx)
  /-- `Fx07` LD Vx, DT (R114). -/
  | ldVxDt (x : RegIdx)
  /-- `Fx15` LD DT, Vx (R115). -/
  | ldDtVx (x : RegIdx)
  /-- `Fx1E` ADD I, Vx (R109). -/
  | addI (x : RegIdx)
  /-- `Fx29` LD F, Vx (R110). -/
  | ldF (x : RegIdx)
  /-- `Fx33` LD B, Vx (R111). -/
  | ldB (x : RegIdx)
  /-- `Fx55` LD [I], Vx (R112). -/
  | ldStore (x : RegIdx)
  /-- `Fx65` LD Vx, [I] (R113). -/
  | ldLoad (x : RegIdx)
  deriving DecidableEq, Repr

/-- The operands that R79's syntax writes as fixed names. -/
inductive NamedOperand where
  | iReg      -- `I`
  | iMem      -- `[I]`
  | delay     -- `DT`
  | font      -- `F`
  | bcd       -- `B`
  | v0        -- the implicit `V0` of `JP V0, nnn`
  deriving DecidableEq, Repr

/-- One operand as an assembly line writes it (R79), with its value before any width is applied. -/
inductive Operand where
  | reg (number : Nat)       -- `V0` to `VF`, a 4-bit field
  | byte (kk : Nat)          -- an 8-bit immediate
  | addr (nnn : Nat)         -- a 12-bit immediate
  | nibble (n : Nat)         -- a 4-bit immediate
  | named (name : NamedOperand)
  deriving DecidableEq, Repr

/-- The operands of an instruction in the order R79 writes them. The ignored `y` of `SHR` and `SHL` is not written. -/
def Instr.operands : Instr → List Operand
  | .cls => []
  | .ret => []
  | .jp nnn => [.addr nnn.toNat]
  | .call nnn => [.addr nnn.toNat]
  | .seImm x kk => [.reg x.val, .byte kk.toNat]
  | .sneImm x kk => [.reg x.val, .byte kk.toNat]
  | .seReg x y => [.reg x.val, .reg y.val]
  | .ldImm x kk => [.reg x.val, .byte kk.toNat]
  | .addImm x kk => [.reg x.val, .byte kk.toNat]
  | .ldReg x y => [.reg x.val, .reg y.val]
  | .orReg x y => [.reg x.val, .reg y.val]
  | .andReg x y => [.reg x.val, .reg y.val]
  | .xorReg x y => [.reg x.val, .reg y.val]
  | .addReg x y => [.reg x.val, .reg y.val]
  | .sub x y => [.reg x.val, .reg y.val]
  | .shr x _ => [.reg x.val]
  | .subn x y => [.reg x.val, .reg y.val]
  | .shl x _ => [.reg x.val]
  | .sneReg x y => [.reg x.val, .reg y.val]
  | .ldI nnn => [.named .iReg, .addr nnn.toNat]
  | .jpV0 nnn => [.named .v0, .addr nnn.toNat]
  | .rnd x kk => [.reg x.val, .byte kk.toNat]
  | .drw x y n => [.reg x.val, .reg y.val, .nibble n.val]
  | .skp x => [.reg x.val]
  | .sknp x => [.reg x.val]
  | .ldVxDt x => [.reg x.val, .named .delay]
  | .ldDtVx x => [.named .delay, .reg x.val]
  | .addI x => [.named .iReg, .reg x.val]
  | .ldF x => [.named .font, .reg x.val]
  | .ldB x => [.named .bcd, .reg x.val]
  | .ldStore x => [.named .iMem, .reg x.val]
  | .ldLoad x => [.reg x.val, .named .iMem]

end Sys2Proof
end

