-- ==== Sys2Proof/WellFormed.lean ====
section
/-! DEFINITION. Well-formedness of operands and instructions (spec/30_encoding.md R61, R62, R72).

The constructors of `Instr` carry operands whose types already have the widths of R61, so every instruction is well
formed ("no register number or immediate is out of range", R72); what can be ill formed is an operand as an assembly
line writes it. The well-formedness of a machine state (R36) is `Machine.State.wf`, and that of a serialized one is
`Machine.Snapshot.wf`. -/

namespace Sys2Proof

/-- An operand fits the field that encodes it: 4 bits for a register number or a nibble, 8 for `kk`, 12 for `nnn` (R61). -/
def Operand.fits : Operand → Bool
  | .reg number => decide (number < 16)
  | .byte kk => decide (kk < 256)
  | .addr nnn => decide (nnn < 4096)
  | .nibble n => decide (n < 16)
  | .named _ => true

/-- Every operand of the instruction fits its field. -/
def Instr.wellFormed (i : Instr) : Bool := i.operands.all Operand.fits

end Sys2Proof
end

