-- ==== Sys2Proof/Decode.lean ====
section
/-! DEFINITION. Decoding, encoding and disassembly (spec/30_encoding.md R58 to R82, spec/opcode_table.json). -/

namespace Sys2Proof

/-! ## Fields (R59, R61) -/

/-- Nibble `a`, bits 15 to 12: the group. -/
def fieldA (op : Word) : BitVec 4 := op.extractLsb' 12 4

/-- Register number `x`, bits 11 to 8. -/
def fieldX (op : Word) : RegIdx := ⟨(op.extractLsb' 8 4).toNat, (op.extractLsb' 8 4).isLt⟩

/-- Register number `y`, bits 7 to 4. -/
def fieldY (op : Word) : RegIdx := ⟨(op.extractLsb' 4 4).toNat, (op.extractLsb' 4 4).isLt⟩

/-- Nibble `n`, bits 3 to 0: a sprite height, or the sub-opcode `d`. -/
def fieldN (op : Word) : Fin 16 := ⟨(op.extractLsb' 0 4).toNat, (op.extractLsb' 0 4).isLt⟩

/-- Byte `kk`, bits 7 to 0: an immediate or a sub-opcode. -/
def fieldKK (op : Word) : Byte := op.extractLsb' 0 8

/-- Address `nnn`, bits 11 to 0. -/
def fieldNNN (op : Word) : Addr12 := op.extractLsb' 0 12

/-! ## The decoder -/

/-- Why a decoder reads no instruction. -/
inductive Reject where
  /-- The word matches no pattern of the opcode map: `ILLEGAL` of R63. -/
  | illegalWord (op : Word)
  /-- Fewer than two bytes are left: an instruction is exactly one 16-bit word (R58). -/
  | truncated
  deriving DecidableEq, Repr

/-- What a decoder answers on a word: exactly one instruction, or a rejection by name (R63). -/
inductive Decoded where
  | instr (i : Instr)
  | reject (why : Reject)
  deriving DecidableEq, Repr

/-- Group 0x8, selected by nibble `d` (R67). -/
def decodeGroup8 (op : Word) : Decoded :=
  match (fieldN op).val with
  | 0x0 => .instr (.ldReg (fieldX op) (fieldY op))
  | 0x1 => .instr (.orReg (fieldX op) (fieldY op))
  | 0x2 => .instr (.andReg (fieldX op) (fieldY op))
  | 0x3 => .instr (.xorReg (fieldX op) (fieldY op))
  | 0x4 => .instr (.addReg (fieldX op) (fieldY op))
  | 0x5 => .instr (.sub (fieldX op) (fieldY op))
  | 0x6 => .instr (.shr (fieldX op) (fieldY op))
  | 0x7 => .instr (.subn (fieldX op) (fieldY op))
  | 0xE => .instr (.shl (fieldX op) (fieldY op))
  | _ => .reject (.illegalWord op)

/-- Group 0xE, selected by the low byte (R68). -/
def decodeGroupE (op : Word) : Decoded :=
  match (fieldKK op).toNat with
  | 0x9E => .instr (.skp (fieldX op))
  | 0xA1 => .instr (.sknp (fieldX op))
  | _ => .reject (.illegalWord op)

/-- Group 0xF, selected by the low byte (R69). `Fx0A` and `Fx18` are among the illegal words. -/
def decodeGroupF (op : Word) : Decoded :=
  match (fieldKK op).toNat with
  | 0x07 => .instr (.ldVxDt (fieldX op))
  | 0x15 => .instr (.ldDtVx (fieldX op))
  | 0x1E => .instr (.addI (fieldX op))
  | 0x29 => .instr (.ldF (fieldX op))
  | 0x33 => .instr (.ldB (fieldX op))
  | 0x55 => .instr (.ldStore (fieldX op))
  | 0x65 => .instr (.ldLoad (fieldX op))
  | _ => .reject (.illegalWord op)

/-- `Decode(op)` of R63: total on all 65536 words. Group 0x0 is matched on all 16 bits (R64), and groups 0x5 and 0x9
need `d = 0` (R66). -/
def decode (op : Word) : Decoded :=
  match (fieldA op).toNat with
  | 0x0 =>
    if op = 0x00E0#16 then .instr .cls
    else if op = 0x00EE#16 then .instr .ret
    else .reject (.illegalWord op)
  | 0x1 => .instr (.jp (fieldNNN op))
  | 0x2 => .instr (.call (fieldNNN op))
  | 0x3 => .instr (.seImm (fieldX op) (fieldKK op))
  | 0x4 => .instr (.sneImm (fieldX op) (fieldKK op))
  | 0x5 => if fieldN op = 0 then .instr (.seReg (fieldX op) (fieldY op)) else .reject (.illegalWord op)
  | 0x6 => .instr (.ldImm (fieldX op) (fieldKK op))
  | 0x7 => .instr (.addImm (fieldX op) (fieldKK op))
  | 0x8 => decodeGroup8 op
  | 0x9 => if fieldN op = 0 then .instr (.sneReg (fieldX op) (fieldY op)) else .reject (.illegalWord op)
  | 0xA => .instr (.ldI (fieldNNN op))
  | 0xB => .instr (.jpV0 (fieldNNN op))
  | 0xC => .instr (.rnd (fieldX op) (fieldKK op))
  | 0xD => .instr (.drw (fieldX op) (fieldY op) (fieldN op))
  | 0xE => decodeGroupE op
  | 0xF => decodeGroupF op
  | _ => .reject (.illegalWord op)

/-- The instruction word of two bytes, the byte at the lower address first: big-endian (R41). -/
def wordOfBytes (hi lo : Byte) : Word := hi ++ lo

/-- The two bytes of a word in the order the hardware stores them (R41). -/
def bytesOfWord (op : Word) : List Byte := [op.extractLsb' 8 8, op.extractLsb' 0 8]

/-- Decoding a byte sequence: a decoder always consumes two bytes (R58). It answers the instruction and the rest of
the bytes, or a rejection by name. -/
def decodeBytes : List Byte → Except Reject (Instr × List Byte)
  | hi :: lo :: rest =>
    match decode (wordOfBytes hi lo) with
    | .instr i => .ok (i, rest)
    | .reject why => .error why
  | _ => .error .truncated

/-- The word the opcode table numbers `w`, `nbits` bits wide; bits above `nbits` are 0. -/
def tableWord (nbits w : Nat) : Word := BitVec.ofNat 16 (w % 2 ^ nbits)

/-- The instruction that the decoder reads from the table's numbering of an instruction, laid out in bytes as the
hardware stores it. -/
def decodeTableWord (nbits w : Nat) : Option Instr :=
  match decodeBytes (bytesOfWord (tableWord nbits w)) with
  | .ok (i, _) => some i
  | .error _ => none

/-! ## The encoder (R60) -/

/-- A register number or a nibble as its 4-bit field. -/
def nibbleOf (x : Fin 16) : BitVec 4 := BitVec.ofNat 4 x.val

/-- Format `A`: a group and an address. -/
def formatA (a : BitVec 4) (nnn : Addr12) : Word := a ++ nnn

/-- Format `XK`: a group, a register and a byte. Format `XS` is the same with a fixed byte. -/
def formatXK (a : BitVec 4) (x : RegIdx) (kk : Byte) : Word := (a ++ nibbleOf x) ++ kk

/-- Format `XYN`: a group, two registers and a nibble. Format `XY` is the same with a fixed nibble. -/
def formatXYN (a : BitVec 4) (x y : RegIdx) (n : Fin 16) : Word := (a ++ nibbleOf x) ++ (nibbleOf y ++ nibbleOf n)

/-- The word of an instruction, from the formats of R60 and the patterns of spec/opcode_table.json. -/
def encode : Instr → Word
  | .cls => 0x00E0#16
  | .ret => 0x00EE#16
  | .jp nnn => formatA 0x1#4 nnn
  | .call nnn => formatA 0x2#4 nnn
  | .seImm x kk => formatXK 0x3#4 x kk
  | .sneImm x kk => formatXK 0x4#4 x kk
  | .seReg x y => formatXYN 0x5#4 x y 0x0
  | .ldImm x kk => formatXK 0x6#4 x kk
  | .addImm x kk => formatXK 0x7#4 x kk
  | .ldReg x y => formatXYN 0x8#4 x y 0x0
  | .orReg x y => formatXYN 0x8#4 x y 0x1
  | .andReg x y => formatXYN 0x8#4 x y 0x2
  | .xorReg x y => formatXYN 0x8#4 x y 0x3
  | .addReg x y => formatXYN 0x8#4 x y 0x4
  | .sub x y => formatXYN 0x8#4 x y 0x5
  | .shr x y => formatXYN 0x8#4 x y 0x6
  | .subn x y => formatXYN 0x8#4 x y 0x7
  | .shl x y => formatXYN 0x8#4 x y 0xE
  | .sneReg x y => formatXYN 0x9#4 x y 0x0
  | .ldI nnn => formatA 0xA#4 nnn
  | .jpV0 nnn => formatA 0xB#4 nnn
  | .rnd x kk => formatXK 0xC#4 x kk
  | .drw x y n => formatXYN 0xD#4 x y n
  | .skp x => formatXK 0xE#4 x 0x9E#8
  | .sknp x => formatXK 0xE#4 x 0xA1#8
  | .ldVxDt x => formatXK 0xF#4 x 0x07#8
  | .ldDtVx x => formatXK 0xF#4 x 0x15#8
  | .addI x => formatXK 0xF#4 x 0x1E#8
  | .ldF x => formatXK 0xF#4 x 0x29#8
  | .ldB x => formatXK 0xF#4 x 0x33#8
  | .ldStore x => formatXK 0xF#4 x 0x55#8
  | .ldLoad x => formatXK 0xF#4 x 0x65#8

/-! ## The opcode table -/

/-- One row of spec/opcode_table.json: a word belongs to it when its bits under `mask` are those of `pattern`. -/
structure OpcodeRow where
  mnemonic : String
  pattern  : Word
  mask     : Word
  deriving DecidableEq, Repr

/-- The word belongs to the row. -/
def OpcodeRow.holds (r : OpcodeRow) (op : Word) : Bool := decide (op &&& r.mask = r.pattern)

/-- Rows of groups 0x0 to 0x7. -/
def opcodeRows0to7 : List OpcodeRow :=
  [⟨"CLS", 0x00E0, 0xFFFF⟩, ⟨"RET", 0x00EE, 0xFFFF⟩, ⟨"JP", 0x1000, 0xF000⟩, ⟨"CALL", 0x2000, 0xF000⟩,
   ⟨"SE_imm", 0x3000, 0xF000⟩, ⟨"SNE_imm", 0x4000, 0xF000⟩, ⟨"SE_reg", 0x5000, 0xF00F⟩,
   ⟨"LD_imm", 0x6000, 0xF000⟩, ⟨"ADD_imm", 0x7000, 0xF000⟩]

/-- Rows of group 0x8. -/
def opcodeRows8 : List OpcodeRow :=
  [⟨"LD_reg", 0x8000, 0xF00F⟩, ⟨"OR", 0x8001, 0xF00F⟩, ⟨"AND", 0x8002, 0xF00F⟩, ⟨"XOR", 0x8003, 0xF00F⟩,
   ⟨"ADD_reg", 0x8004, 0xF00F⟩, ⟨"SUB", 0x8005, 0xF00F⟩, ⟨"SHR", 0x8006, 0xF00F⟩, ⟨"SUBN", 0x8007, 0xF00F⟩,
   ⟨"SHL", 0x800E, 0xF00F⟩]

/-- Rows of groups 0x9 to 0xF. -/
def opcodeRows9toF : List OpcodeRow :=
  [⟨"SNE_reg", 0x9000, 0xF00F⟩, ⟨"LD_I", 0xA000, 0xF000⟩, ⟨"JP_V0", 0xB000, 0xF000⟩, ⟨"RND", 0xC000, 0xF000⟩,
   ⟨"DRW", 0xD000, 0xF000⟩, ⟨"SKP", 0xE09E, 0xF0FF⟩, ⟨"SKNP", 0xE0A1, 0xF0FF⟩, ⟨"LD_Vx_DT", 0xF007, 0xF0FF⟩,
   ⟨"LD_DT_Vx", 0xF015, 0xF0FF⟩, ⟨"ADD_I", 0xF01E, 0xF0FF⟩, ⟨"LD_F", 0xF029, 0xF0FF⟩, ⟨"LD_B", 0xF033, 0xF0FF⟩,
   ⟨"LD_store", 0xF055, 0xF0FF⟩, ⟨"LD_load", 0xF065, 0xF0FF⟩]

/-- The 32 rows of spec/opcode_table.json. -/
def opcodeTable : List OpcodeRow := opcodeRows0to7 ++ opcodeRows8 ++ opcodeRows9toF

/-! ## The disassembler `decode2` (R79, R81, R82) -/

/-- The mnemonic R79 writes for an instruction. Several instructions share one; their operands tell them apart. -/
def Instr.mnemonic : Instr → String
  | .cls => "CLS"
  | .ret => "RET"
  | .jp _ => "JP"
  | .call _ => "CALL"
  | .seImm _ _ => "SE"
  | .sneImm _ _ => "SNE"
  | .seReg _ _ => "SE"
  | .ldImm _ _ => "LD"
  | .addImm _ _ => "ADD"
  | .ldReg _ _ => "LD"
  | .orReg _ _ => "OR"
  | .andReg _ _ => "AND"
  | .xorReg _ _ => "XOR"
  | .addReg _ _ => "ADD"
  | .sub _ _ => "SUB"
  | .shr _ _ => "SHR"
  | .subn _ _ => "SUBN"
  | .shl _ _ => "SHL"
  | .sneReg _ _ => "SNE"
  | .ldI _ => "LD"
  | .jpV0 _ => "JP"
  | .rnd _ _ => "RND"
  | .drw _ _ _ => "DRW"
  | .skp _ => "SKP"
  | .sknp _ => "SKNP"
  | .ldVxDt _ => "LD"
  | .ldDtVx _ => "LD"
  | .addI _ => "ADD"
  | .ldF _ => "LD"
  | .ldB _ => "LD"
  | .ldStore _ => "LD"
  | .ldLoad _ => "LD"

/-- What `decode2` answers: an assembly line, or the distinct `ILLEGAL` result (R82). -/
inductive Disasm where
  | line (mnemonic : String) (operands : List Operand)
  | illegal
  deriving DecidableEq, Repr

/-- `decode2(op)`: it names an instruction exactly when `decode` does, and the same one (R81). It reads no state and
changes none. -/
def decode2 (op : Word) : Disasm :=
  match decode op with
  | .instr i => .line i.mnemonic i.operands
  | .reject _ => .illegal

/-- A number in hexadecimal capitals, padded to `digits` digits. -/
def hexDigits : (digits : Nat) → Nat → String
  | 0, _ => ""
  | d + 1, v => hexDigits d (v / 16) ++ String.ofList [("0123456789ABCDEF".toList).getD (v % 16) '0']

/-- An operand as R79 writes it: registers as `V0` to `VF`, numbers in hexadecimal. -/
def Operand.text : Operand → String
  | .reg number => "V" ++ hexDigits 1 number
  | .byte kk => hexDigits 2 kk
  | .addr nnn => hexDigits 3 nnn
  | .nibble n => hexDigits 1 n
  | .named .iReg => "I"
  | .named .iMem => "[I]"
  | .named .delay => "DT"
  | .named .font => "F"
  | .named .bcd => "B"
  | .named .v0 => "V0"

/-- The line of text of a disassembly (R79; DESIGN CHOICE, log entry 16). -/
def Disasm.text : Disasm → String
  | .line mnemonic [] => mnemonic
  | .line mnemonic operands => mnemonic ++ " " ++ String.intercalate ", " (operands.map Operand.text)
  | .illegal => "ILLEGAL"

end Sys2Proof
end

