-- ==== Sys2Proof/Config.lean ====
section
/-! DEFINITION. What this hardware fixes (spec/00_scope.md R9, R10) and the free values of the model.

Of R10's parameters, `STACK_DEPTH` is `Config.stackDepth` and `FONT` is an argument of the host action that loads it.
The other switches are fixed by R10 for this hardware and stand in the meanings (DEDUCED, log entry 15). -/

namespace Sys2Proof.Config

/-- The number of bytes of memory: addresses 0x000 to 0xFFF (R9, R37). -/
def memSize : Nat := 4096

/-- `STACK_DEPTH` of R10. This hardware's stack is unbounded (`none`); a finite `d` is the other value a model may
take (R27, D10), and `Machine.callWithDepth` gives `CALL` its meaning for either. DESIGN CHOICE for the
form, log entry 6. -/
def stackDepth : Option Nat := none

/-- The address at which programs are loaded and started (R9, R144). -/
def romBase : Nat := 0x200

/-- The longest program image that `loadRom` accepts (R144). -/
def romMax : Nat := 3584

/-- The `FONT` parameter of R10: 80 bytes, five for each of the 16 glyphs (R142). Log entry 7. -/
abbrev Font := Vector Byte 80

/-- FREE VALUE. The key snapshot the host passes to cycle number `n` when the run does not say which one it passes
(R132, D24: "an argument of each step, fixed within the step, free between steps"). It has no body, so a claim holds
for every key schedule. -/
opaque freeKeys (n : Nat) : Vector Bool 16

/-- FREE VALUE. The random byte available to cycle number `n` when the run does not say which one is drawn (R127:
"a free 8-bit input of the step, `Draw8()`, under no law"). -/
opaque freeDraw (n : Nat) : Byte

end Sys2Proof.Config
end

