-- ==== Sys2Proof/Machine/State.lean ====
section
/-! DEFINITION. The state of the machine, the reasons a step can stop, and the state after reset
(spec/10_state.md R18 to R36; spec/60_exceptions.md R120 to R122; spec/70_reset_and_hazards.md R141). -/

namespace Sys2Proof.Machine

/-- The contents of memory: (address, byte) pairs in one canonical form, strictly rising addresses and no entry equal
to what an unlisted address reads as. `Memory.wf` says the form (R31, R37). DESIGN CHOICE,
log entry 1. -/
abbrev Memory := List Host.Cell

/-- The display: 32 rows of 64 one-bit cells, row 0 first. Cell `k = px + 64*py` of the flat sequence of R30 is bit `px`
of row `py`. DESIGN CHOICE, log entry 2. -/
abbrev Display := Vector (BitVec 64) 32

/-- A key snapshot: key `k` is pressed or not, for `k` from 0x0 to 0xF (R132). -/
abbrev Keys := Vector Bool 16

/-- The cause of a fault, with what R122 records of it. The faulting instruction's `pc` stands in `FaultRecord`.
Every cause is raised by a step that then commits no other write (R15, R120). All are safe: the spec says the core
stops there, and where the source might go on the model stops (D2, D4, D5, D9, D10, D18, D20). -/
inductive FaultCause where
  /-- Code 1. The fetched word `op` matches no pattern (R70, R121). Raised by the step after the fetch. Safe. -/
  | illegalOpcode (op : Word)
  /-- Code 2. `pc > 4094` at the fetch (R47). Raised by the step before decode. Safe. -/
  | fetchOutOfRange
  /-- Code 3. A data address above 4095 (R49); `addr` is the first such address in access order. Raised by `Dxyn`,
  `Fx33`, `Fx55`, `Fx65`. Safe. -/
  | memOutOfRange (addr : Nat) (op : Word)
  /-- Code 4. `RET` with an empty stack (R84). Safe. -/
  | stackUnderflow
  /-- Code 5. `CALL` with the stack at a finite `STACK_DEPTH` (R86); never on this hardware. Safe. -/
  | stackOverflow
  /-- Code 6. `SKP` or `SKNP` with a key number above 0xF (R93, R94). Safe. -/
  | keyOutOfRange (vx : Byte) (op : Word)
  /-- Code 7. `Fx29` with a digit above 0xF (R110). Safe. -/
  | fontIndexOutOfRange (vx : Byte) (op : Word)
  deriving DecidableEq, Repr

/-- A fault record `{kind, pc, info}` of R120: the cause carries kind and info, `pc` is the address of the faulting
instruction (R123). -/
structure FaultRecord where
  cause : FaultCause
  pc    : Word
  deriving DecidableEq, Repr

/-- The State aggregate (R18), the fault mark (R19), and the inputs of the next cycle (R35, R75). -/
structure State where
  /-- The 4096 bytes of memory (R31). -/
  mem     : Memory
  /-- The general registers `V0` to `VF` (R20). -/
  regs    : Vector Byte 16
  /-- The index register `I` (R26). -/
  i       : Word
  /-- The program counter (R24). -/
  pc      : Word
  /-- The return stack, last entry on top (R13, R27). -/
  stack   : List Word
  /-- The display buffer (R30). -/
  display : Display
  /-- The delay timer `DT` (R28). -/
  dt      : Byte
  /-- The sound timer `ST` (R29). -/
  st      : Byte
  /-- The fault mark: no fault, or one fault record (R19). -/
  fault   : Option FaultRecord
  /-- MODEL'S OWN. The key snapshot of the next cycle, an input of the step (R75, R132). DESIGN CHOICE, log entry 3. -/
  keys    : Keys
  /-- MODEL'S OWN. The random byte of the next cycle, an input of the step (R75, R127). DESIGN CHOICE, log entry 3. -/
  draw    : Byte
  /-- MODEL'S OWN. How many cycles have run: the index at which free inputs are taken. DESIGN CHOICE, log entry 3. -/
  cycleNo : Nat
  deriving DecidableEq, Repr

/-- Why `step` gives no next state. -/
inductive Fault where
  /-- The core is stopped: the fault mark holds `r`, and "a stopped core takes no step" (R120, R124). Raised by `step`
  and by no instruction. Safe: only a reset goes on from here, and the spec says so. DEDUCED,
  log entry 4. -/
  | stopped (r : FaultRecord)
  deriving DecidableEq, Repr

/-- Why a request is not accepted. No instruction of this model is refused. -/
inductive Refusal where
  /-- `exec` has no meaning for the instruction yet. Safe. No arm of `exec` uses it. -/
  | notModelled (mnemonic : String)
  /-- The host's `loadRom` was given more than 3584 bytes (R144). Raised by `hostAct`. Safe. -/
  | romTooLong (len : Nat)
  /-- The host's `restore` was given an ill-formed State (R139). Raised by `hostAct`. Safe. -/
  | illFormedSnapshot
  deriving DecidableEq, Repr

/-- What a step, a meaning or a host action answers. -/
abbrev Result := Host.Outcome State Fault Refusal

/-- The state after `reset()` (R141): memory all 0, which in canonical form lists nothing. `keys` and `draw` are the
free inputs of cycle 0, and `cycleNo` starts at 0 (DESIGN CHOICE, log entry 3). -/
def State.reset : State where
  mem := []
  regs := Vector.replicate 16 0
  i := 0
  pc := 0x200
  stack := []
  display := Vector.replicate 32 0
  dt := 0
  st := 0
  fault := none
  keys := Config.freeKeys 0
  draw := Config.freeDraw 0
  cycleNo := 0

end Sys2Proof.Machine
end

