-- ==== Sys2Proof/Machine/Ops.lean ====
section
/-! DEFINITION. The named operations over memory, registers, stack, display and program counter, and taking a fault
(spec/20_memory.md R41 to R49; spec/00_scope.md R13 to R16; spec/60_exceptions.md R120 to R123). -/

namespace Sys2Proof.Machine

/-! ## Memory (R31, R37, R41, R48, R49) -/

/-- What an address that memory does not list reads as: reset leaves every byte 0 (R141). -/
def Memory.unlisted : Byte := 0

/-- Addresses rise strictly from `lo`, lie in memory, and no entry holds the unlisted value. -/
def Memory.wfFrom : (lo : Nat) → Memory → Bool
  | _, [] => true
  | lo, (a, b) :: m => decide (lo ≤ a) && decide (a < Config.memSize) && decide (b ≠ Memory.unlisted) && Memory.wfFrom (a + 1) m

/-- The canonical form of memory: 4096 bytes at addresses 0x000 to 0xFFF, each written in exactly one way (R36). -/
def Memory.wf (m : Memory) : Bool := Memory.wfFrom 0 m

/-- The byte at an address. -/
def Memory.byteAt : Memory → Nat → Byte
  | [], _ => Memory.unlisted
  | (a, b) :: m, k => if a = k then b else Memory.byteAt m k

/-- The memory with one byte changed, in canonical form again. -/
def Memory.put : Memory → Nat → Byte → Memory
  | [], k, v => if v = Memory.unlisted then [] else [(k, v)]
  | (a, b) :: m, k, v =>
    if k < a then (if v = Memory.unlisted then (a, b) :: m else (k, v) :: (a, b) :: m)
    else if k = a then (if v = Memory.unlisted then m else (k, v) :: m)
    else (a, b) :: Memory.put m k v

/-- Bytes put at ascending addresses from `a`. -/
def Memory.putAll : Memory → Nat → List Byte → Memory
  | m, _, [] => m
  | m, a, b :: bs => Memory.putAll (m.put a b) (a + 1) bs

/-- `MemRead(addr, 1)` of R49: the byte, or the address that lies outside memory. -/
def memRead (m : Memory) (addr : Nat) : Except Nat Byte :=
  if addr < Config.memSize then .ok (m.byteAt addr) else .error addr

/-- `MemWrite(addr, 1, v)` of R49. -/
def memWrite (m : Memory) (addr : Nat) (v : Byte) : Except Nat Memory :=
  if addr < Config.memSize then .ok (m.put addr v) else .error addr

/-- `n` reads at ascending addresses from `a`, not wrapped (R48). The error is the first address outside memory in
access order. -/
def readBlock (m : Memory) : (a n : Nat) → Except Nat (List Byte)
  | _, 0 => .ok []
  | a, n + 1 =>
    match memRead m a with
    | .error e => .error e
    | .ok b =>
      match readBlock m (a + 1) n with
      | .error e => .error e
      | .ok bs => .ok (b :: bs)

/-- Writes at ascending addresses from `a`, not wrapped (R48). The error is the first address outside memory in access
order, and then no memory is answered: a faulting step keeps none of its writes (R15). -/
def writeBlock : Memory → Nat → List Byte → Except Nat Memory
  | m, _, [] => .ok m
  | m, a, b :: bs =>
    match memWrite m a b with
    | .error e => .error e
    | .ok m' => writeBlock m' (a + 1) bs

/-- The instruction word at address `a`, big-endian (R41, R74), or `none` if it does not lie inside memory: `a > 4094`
(R47). It is the fetch of the cycle at `pc`, and the effect-free preview of R74 at any other address. -/
def fetchAt (m : Memory) (a : Nat) : Option Word :=
  if a + 1 < Config.memSize then some (wordOfBytes (m.byteAt a) (m.byteAt (a + 1))) else none

/-! ## Registers (R13, R16, R20) -/

/-- `V[x]`. -/
def State.v (s : State) (x : RegIdx) : Byte := s.regs[x]

/-- `V[x] <- b`. -/
def State.setV (s : State) (x : RegIdx) (b : Byte) : State := { s with regs := s.regs.set x b }

/-- `V0` to `Vx`, the block that `Fx55` stores (R112). -/
def State.regBlock (s : State) (x : RegIdx) : List Byte := s.regs.toList.take (x.val + 1)

/-- Bytes written to registers `Vk`, `V(k+1)` and so on; a byte past `VF` has no register. -/
def putRegs (regs : Vector Byte 16) : (k : Nat) → List Byte → Vector Byte 16
  | _, [] => regs
  | k, b :: bs => putRegs (regs.setIfInBounds k b) (k + 1) bs

/-- `V[k] <- bs[k]` for every `k` that `bs` has, the block that `Fx65` loads (R113). -/
def State.loadRegs (s : State) (bs : List Byte) : State := { s with regs := putRegs s.regs 0 bs }

/-! ## Program counter (R14, R76) -/

/-- `pc <- pc + 2`: the next instruction. No fetched instruction wraps `pc` (DEDUCED, log entry 14). -/
def State.advance (s : State) : State := { s with pc := s.pc + 2 }

/-- `pc <- pc + 4` if the condition holds, else `pc <- pc + 2` (R88). -/
def State.skipIf (s : State) (cond : Bool) : State := { s with pc := s.pc + (if cond then 4 else 2) }

/-! ## Return stack (R27) -/

/-- `push(w)`: the stack grows by one entry, last on top. -/
def State.push (s : State) (w : Word) : State := { s with stack := s.stack ++ [w] }

/-- The stack holds `STACK_DEPTH` entries; never so when the depth is unbounded (R86). -/
def stackFull (depth : Option Nat) (stack : List Word) : Bool :=
  match depth with
  | none => false
  | some d => decide (d ≤ stack.length)

/-- The stack holds at most `STACK_DEPTH` entries; any number when the depth is unbounded (R36). -/
def stackWithin (depth : Option Nat) (size : Nat) : Bool :=
  match depth with
  | none => true
  | some d => decide (size ≤ d)

/-! ## Display (R30) -/

/-- Display cell `k` of the flat sequence: true is 1, on. -/
def Display.cell (d : Display) (k : Fin 2048) : Bool := d[k.val / 64].getLsbD (k.val % 64)

/-- `display[k] <- display[k] ^ 1`. -/
def Display.flip (d : Display) (k : Fin 2048) : Display :=
  d.set (k.val / 64) (d[k.val / 64] ^^^ BitVec.twoPow 64 (k.val % 64))

/-- All 2048 cells 0. -/
def Display.clear : Display := Vector.replicate 32 0

/-! ## Taking a fault (R15, R120, R123) -/

/-- The fault's code of R122. -/
def FaultCause.code : FaultCause → Nat
  | .illegalOpcode _ => 1
  | .fetchOutOfRange => 2
  | .memOutOfRange _ _ => 3
  | .stackUnderflow => 4
  | .stackOverflow => 5
  | .keyOutOfRange _ _ => 6
  | .fontIndexOutOfRange _ _ => 7

/-- `raise F(info)`: the state stays exactly as it was before the step, `pc` included, and the fault mark is set (R120).
No state is saved, no handler runs and there is no vector (R123), so there is no return from a fault either (R125):
`hostAct .reset` is what clears the mark. DEDUCED, log entry 4. -/
def takeFault (cause : FaultCause) (s : State) : Result := .next { s with fault := some ⟨cause, s.pc⟩ }

/-! ## The inputs of a cycle (R75, R78) -/

/-- The next cycle gets inputs of its own: a fresh key snapshot and a fresh random byte (R127, R132). A host that says
which inputs it gives puts them there with `hostAct (.cycle keys draw)`. DESIGN CHOICE, log entry 3. -/
def State.freshInputs (s : State) : State :=
  { s with keys := Config.freeKeys (s.cycleNo + 1), draw := Config.freeDraw (s.cycleNo + 1), cycleNo := s.cycleNo + 1 }

/-- The end of a cycle, whether its instruction completed or faulted. -/
def finishCycle : Result → Result
  | .next s => .next s.freshInputs
  | .fault r => .fault r
  | .refused r => .refused r

end Sys2Proof.Machine
end

