-- ==== Sys2Proof/Machine/Operands.lean ====
section
/-! DEFINITION. The operands that instructions compute (spec/30_encoding.md R61, R62). Register operands are
`State.v`; the implicit operands `I`, `DT`, the display, the key snapshot, the stack and the random byte are fields of
`State`. -/

namespace Sys2Proof.Machine

/-- `zext_16(nnn)`: an address immediate as `pc` or `I` takes it (R61). -/
def zextAddr (nnn : Addr12) : Word := nnn.setWidth 16

/-- The address of byte `k` of a data access, `I + k`, exact and never wrapped (R48). -/
def State.dataAddr (s : State) (k : Nat) : Nat := s.i.toNat + k

/-- `key[k]` of this step's snapshot, or `none` where the key map has no key `k`: `k > 15` (R93, R132). -/
def State.keyPressed (s : State) (k : Byte) : Option Bool :=
  if h : k.toNat < 16 then some (s.keys[k.toNat]'h) else none

/-- The address of the font glyph for digit `d`, `5*d`, or `none` where the offset table has no entry: `d > 15` (R110). -/
def glyphAddr (d : Byte) : Option Word :=
  if d.toNat < 16 then some (BitVec.ofNat 16 (5 * d.toNat)) else none

/-- The three decimal digits of a byte: hundreds, tens, ones (R111). -/
def bcdDigits (v : Byte) : List Byte :=
  [BitVec.ofNat 8 (v.toNat / 100), BitVec.ofNat 8 (v.toNat / 10 % 10), BitVec.ofNat 8 (v.toNat % 10)]

/-- The display cell at column `px` and row `py`, each taken modulo the size of its axis (R118). -/
def cellAt (px py : Nat) : Fin 2048 := ⟨px % 64 + (py % 32) * 64, by omega⟩

/-- The pixel of a sprite byte at column offset `c`: bit 7 is the leftmost (R118, D22; PRESUMED, log entry 8). -/
def spritePixel (row : Byte) (c : Nat) : Bool := row.getLsbD (7 - c)

end Sys2Proof.Machine
end

