-- ==== Sys2Proof/Machine/Flags.lean ====
section
/-! DEFINITION. The values written to `VF` as a flag (spec/10_state.md R22; spec/43_alu.md R102 to R106;
spec/46_display.md R118). Each is 0 or 1. `VF` is always the last register written (spec/00_scope.md R16). -/

namespace Sys2Proof.Machine

/-- A condition as the byte that `VF` takes: 1 if it holds, else 0. -/
def flagByte (c : Bool) : Byte := if c then 1 else 0

/-- `ADD Vx, Vy`: the unsigned sum exceeds 255 (R102). -/
def carryFlag (a b : Byte) : Byte := flagByte (decide (a.toNat + b.toNat > 255))

/-- `SUB` and `SUBN`: the minuend is strictly greater, so equal operands give 0 (R103, R105, C4). -/
def greaterFlag (minuend subtrahend : Byte) : Byte := flagByte (decide (minuend.toNat > subtrahend.toNat))

/-- `SHR`: the bit shifted out, the old bit 0 (R104). -/
def lowBitFlag (a : Byte) : Byte := flagByte (a.getLsbD 0)

/-- `SHL`: the bit shifted out, the old bit 7 (R106). -/
def highBitFlag (a : Byte) : Byte := flagByte (a.getLsbD 7)

/-- `VF <- flag`, after the instruction's other writes (R16). -/
def State.setFlag (s : State) (flag : Byte) : State := s.setV regF flag

/-- A result and a flag: `V[x]` is written first and `VF` last, so with `x = 0xF` the flag is what remains (R16). -/
def State.setVFlag (s : State) (x : RegIdx) (result flag : Byte) : State := (s.setV x result).setFlag flag

end Sys2Proof.Machine
end

