-- ==== Sys2Proof/Machine/Alu.lean ====
section
/-! DEFINITION. The register and arithmetic-logic instructions (spec/43_alu.md R95 to R107). Bytes wrap modulo 256
(R95), operands are read before any write, and `VF` is written last (R16). No instruction here faults. -/

namespace Sys2Proof.Machine

/-- `6xkk` LD Vx, kk (R96). -/
def execLdImm (x : RegIdx) (kk : Byte) (s : State) : Result := .next (s.setV x kk).advance

/-- `7xkk` ADD Vx, kk (R97): no flag is written. -/
def execAddImm (x : RegIdx) (kk : Byte) (s : State) : Result := .next (s.setV x (s.v x + kk)).advance

/-- `8xy0` LD Vx, Vy (R98). -/
def execLdReg (x y : RegIdx) (s : State) : Result := .next (s.setV x (s.v y)).advance

/-- `8xy1` OR Vx, Vy (R99): `VF` is not written as a flag. -/
def execOr (x y : RegIdx) (s : State) : Result := .next (s.setV x (s.v x ||| s.v y)).advance

/-- `8xy2` AND Vx, Vy (R100): `VF` is not written as a flag. -/
def execAnd (x y : RegIdx) (s : State) : Result := .next (s.setV x (s.v x &&& s.v y)).advance

/-- `8xy3` XOR Vx, Vy (R101): `VF` is not written as a flag. -/
def execXor (x y : RegIdx) (s : State) : Result := .next (s.setV x (s.v x ^^^ s.v y)).advance

/-- `8xy4` ADD Vx, Vy (R102): `VF` is the carry out. -/
def execAddReg (x y : RegIdx) (s : State) : Result :=
  .next (s.setVFlag x (s.v x + s.v y) (carryFlag (s.v x) (s.v y))).advance

/-- `8xy5` SUB Vx, Vy (R103): `VF` is 1 only if `Vx > Vy`. -/
def execSub (x y : RegIdx) (s : State) : Result :=
  .next (s.setVFlag x (s.v x - s.v y) (greaterFlag (s.v x) (s.v y))).advance

/-- `8xy6` SHR Vx (R104): `y` is not read. -/
def execShr (x : RegIdx) (s : State) : Result :=
  .next (s.setVFlag x (s.v x >>> 1) (lowBitFlag (s.v x))).advance

/-- `8xy7` SUBN Vx, Vy (R105): `VF` is 1 only if `Vy > Vx`. -/
def execSubn (x y : RegIdx) (s : State) : Result :=
  .next (s.setVFlag x (s.v y - s.v x) (greaterFlag (s.v y) (s.v x))).advance

/-- `8xyE` SHL Vx (R106): `y` is not read. -/
def execShl (x : RegIdx) (s : State) : Result :=
  .next (s.setVFlag x (s.v x <<< 1) (highBitFlag (s.v x))).advance

/-- `Cxkk` RND Vx, kk (R107): this step's random byte, masked. -/
def execRnd (x : RegIdx) (kk : Byte) (s : State) : Result := .next (s.setV x (s.draw &&& kk)).advance

end Sys2Proof.Machine
end

