-- ==== Sys2Proof/Machine/ControlFlow.lean ====
section
/-! DEFINITION. RET, JP, CALL and JP V0 (spec/41_control_flow.md R83 to R87). -/

namespace Sys2Proof.Machine

/-- `00EE` RET (R84): the last stack entry is popped into `pc` as it is; an empty stack faults. -/
def execRet (s : State) : Result :=
  match s.stack.getLast? with
  | none => takeFault .stackUnderflow s
  | some t => .next { s with pc := t, stack := s.stack.dropLast }

/-- `1nnn` JP nnn (R85). A target that cannot be fetched faults at the next fetch, not here. -/
def execJp (nnn : Addr12) (s : State) : Result := .next { s with pc := zextAddr nnn }

/-- `2nnn` CALL nnn at a given `STACK_DEPTH` (R86): the address of the next instruction is pushed. -/
def callWithDepth (depth : Option Nat) (nnn : Addr12) (s : State) : Result :=
  if stackFull depth s.stack then takeFault .stackOverflow s
  else .next { s.push (s.pc + 2) with pc := zextAddr nnn }

/-- `2nnn` CALL nnn on this hardware, whose `STACK_DEPTH` is unbounded (R86, D10). -/
def execCall (nnn : Addr12) (s : State) : Result := callWithDepth Config.stackDepth nnn s

/-- `Bnnn` JP V0, nnn (R87): the sum is not masked to 12 bits. -/
def execJpV0 (nnn : Addr12) (s : State) : Result := .next { s with pc := (s.v 0).setWidth 16 + zextAddr nnn }

end Sys2Proof.Machine
end

