-- ==== Sys2Proof/Machine/Draw.lean ====
section
/-! DEFINITION. The display instructions (spec/46_display.md R117 to R119). The word that a fault records is the
encoding of the instruction (DEDUCED, log entry 11). -/

namespace Sys2Proof.Machine

/-- `00E0` CLS (R117). -/
def execCls (s : State) : Result := .next { s with display := Display.clear }.advance

/-- A display being drawn on, and whether a cell has gone from 1 to 0. -/
structure Canvas where
  display   : Display
  collision : Bool
  deriving DecidableEq, Repr

/-- One set pixel of a sprite at a cell: collide if it is 1, then flip it (R118). -/
def Canvas.plot (c : Canvas) (k : Fin 2048) : Canvas :=
  ⟨c.display.flip k, c.collision || c.display.cell k⟩

/-- One row of a sprite, its eight columns from the left; a sprite bit of 0 leaves its cell alone (R118). -/
def Canvas.drawRow (c : Canvas) (px py : Nat) (row : Byte) : Canvas :=
  (List.range 8).foldl (fun c col => if spritePixel row col then c.plot (cellAt (px + col) py) else c) c

/-- The rows of a sprite, top row first (R118). -/
def Canvas.drawRows (c : Canvas) (px py : Nat) : List Byte → Canvas
  | [] => c
  | row :: rows => Canvas.drawRows (c.drawRow px py row) px (py + 1) rows

/-- `Dxyn` DRW Vx, Vy, n (R118): all `n` sprite bytes are read first, then drawn; `VF` is the collision, written last. -/
def execDrw (x y : RegIdx) (n : Fin 16) (s : State) : Result :=
  match readBlock s.mem (s.dataAddr 0) n.val with
  | .error a => takeFault (.memOutOfRange a (encode (.drw x y n))) s
  | .ok rows =>
    let c := (Canvas.mk s.display false).drawRows (s.v x).toNat (s.v y).toNat rows
    .next ({ s with display := c.display }.setFlag (flagByte c.collision)).advance

end Sys2Proof.Machine
end

