-- ==== Sys2Proof/Machine/IndexMemory.lean ====
section
/-! DEFINITION. The index register and memory instructions (spec/44_index_memory.md R108 to R113). The one addressing
mode is `I + k`; `Fx33`, `Fx55` and `Fx65` leave `I` as it is. The word that a fault records is the encoding of the
instruction (DEDUCED, log entry 11). -/

namespace Sys2Proof.Machine

/-- `Annn` LD I, nnn (R108). -/
def execLdI (nnn : Addr12) (s : State) : Result := .next { s with i := zextAddr nnn }.advance

/-- `Fx1E` ADD I, Vx (R109): modulo 2^16; `VF` is not written. -/
def execAddI (x : RegIdx) (s : State) : Result := .next { s with i := s.i + (s.v x).setWidth 16 }.advance

/-- `Fx29` LD F, Vx (R110): `I` points at the glyph of digit `Vx`; a digit above 0xF faults. -/
def execLdF (x : RegIdx) (s : State) : Result :=
  match glyphAddr (s.v x) with
  | none => takeFault (.fontIndexOutOfRange (s.v x) (encode (.ldF x))) s
  | some a => .next { s with i := a }.advance

/-- Bytes stored from address `I` upward by the instruction whose word is `op`: all of them, or a fault and none (R49). -/
def storeAtI (bs : List Byte) (op : Word) (s : State) : Result :=
  match writeBlock s.mem (s.dataAddr 0) bs with
  | .error a => takeFault (.memOutOfRange a op) s
  | .ok m => .next { s with mem := m }.advance

/-- `Fx33` LD B, Vx (R111): hundreds, tens and ones at `I`, `I+1`, `I+2`. -/
def execLdB (x : RegIdx) (s : State) : Result := storeAtI (bcdDigits (s.v x)) (encode (.ldB x)) s

/-- `Fx55` LD [I], Vx (R112): `V0` to `Vx` at `I` to `I+x`. -/
def execLdStore (x : RegIdx) (s : State) : Result := storeAtI (s.regBlock x) (encode (.ldStore x)) s

/-- `Fx65` LD Vx, [I] (R113): `V0` to `Vx` from `I` to `I+x`, all of them, or a fault and none. -/
def execLdLoad (x : RegIdx) (s : State) : Result :=
  match readBlock s.mem (s.dataAddr 0) (x.val + 1) with
  | .error a => takeFault (.memOutOfRange a (encode (.ldLoad x))) s
  | .ok bs => .next (s.loadRegs bs).advance

end Sys2Proof.Machine
end

