-- ==== Sys2Proof/Machine/Skip.lean ====
section
/-! DEFINITION. The conditional skips (spec/42_skip.md R88 to R94). A skip passes over exactly one word and never
decodes it (R77). The word that a fault records is the encoding of the instruction (DEDUCED, log entry 11). -/

namespace Sys2Proof.Machine

/-- `3xkk` SE Vx, kk (R89). -/
def execSeImm (x : RegIdx) (kk : Byte) (s : State) : Result := .next (s.skipIf (s.v x == kk))

/-- `4xkk` SNE Vx, kk (R90). -/
def execSneImm (x : RegIdx) (kk : Byte) (s : State) : Result := .next (s.skipIf (s.v x != kk))

/-- `5xy0` SE Vx, Vy (R91). -/
def execSeReg (x y : RegIdx) (s : State) : Result := .next (s.skipIf (s.v x == s.v y))

/-- `9xy0` SNE Vx, Vy (R92). -/
def execSneReg (x y : RegIdx) (s : State) : Result := .next (s.skipIf (s.v x != s.v y))

/-- `Ex9E` SKP Vx (R93): skip if key `Vx` is pressed; a number above 0xF faults. -/
def execSkp (x : RegIdx) (s : State) : Result :=
  match s.keyPressed (s.v x) with
  | none => takeFault (.keyOutOfRange (s.v x) (encode (.skp x))) s
  | some pressed => .next (s.skipIf pressed)

/-- `ExA1` SKNP Vx (R94): skip if key `Vx` is not pressed; a number above 0xF faults. -/
def execSknp (x : RegIdx) (s : State) : Result :=
  match s.keyPressed (s.v x) with
  | none => takeFault (.keyOutOfRange (s.v x) (encode (.sknp x))) s
  | some pressed => .next (s.skipIf (!pressed))

end Sys2Proof.Machine
end

