-- ==== Sys2Proof/Machine/Timers.lean ====
section
/-! DEFINITION. The delay timer instructions (spec/45_timers.md R114 to R116). No instruction touches the sound timer,
and none decrements either timer: the host's `tick` does (R131). -/

namespace Sys2Proof.Machine

/-- `Fx07` LD Vx, DT (R114). -/
def execLdVxDt (x : RegIdx) (s : State) : Result := .next (s.setV x s.dt).advance

/-- `Fx15` LD DT, Vx (R115). -/
def execLdDtVx (x : RegIdx) (s : State) : Result := .next { s with dt := s.v x }.advance

end Sys2Proof.Machine
end

