-- ==== Sys2Proof/Machine/Step.lean ====
section
/-! DEFINITION. One step of the core: one `cycle` of fetch, decode and execute (spec/30_encoding.md R73 to R78). -/

namespace Sys2Proof.Machine

/-- `Step(S, key, r)` of R75, with `key` and `r` the inputs that the state holds for this cycle. Faults are found in the
order of R126: fetch, then decode, then the instruction's own. -/
def step (s : State) : Host.Outcome State Fault Refusal :=
  match s.fault with
  | some r => .fault (.stopped r)
  | none =>
    match fetchAt s.mem s.pc.toNat with
    | none => finishCycle (takeFault .fetchOutOfRange s)
    | some op =>
      match decode op with
      | .reject _ => finishCycle (takeFault (.illegalOpcode op) s)
      | .instr i => finishCycle (exec i s)

/-- `s` with the instruction that the opcode table numbers `w` stored where `step` fetches next: at `pc` and `pc + 1`,
high byte first (R41). A stopped core fetches nothing, so the fault mark is cleared. If `pc` lies outside memory there is
no such place and memory stays as it is. DESIGN CHOICE, log entry 12. -/
def State.withFetchWord (s : State) (nbits w : Nat) : State :=
  match fetchAt s.mem s.pc.toNat with
  | none => { s with fault := none }
  | some _ => { s with mem := s.mem.putAll s.pc.toNat (bytesOfWord (tableWord nbits w)), fault := none }

end Sys2Proof.Machine
end

