-- ==== Sys2Proof/Machine/HostActions.lean ====
section
/-! DEFINITION. The host, the only other agent: its actions of R138 between steps, and the end of a run
(spec/60_exceptions.md R131, R137 to R140; spec/70_reset_and_hazards.md R141 to R146). A run of the whole system is a list of them (DEDUCED, log entries
5 and 19). -/

namespace Sys2Proof.Machine

/-! ## Timers (R131) -/

/-- `tick()`: both timers go down by one, floored at 0. -/
def State.tick (s : State) : State :=
  { s with dt := if s.dt = 0 then 0 else s.dt - 1, st := if s.st = 0 then 0 else s.st - 1 }

/-! ## Loading (R142 to R144) -/

/-- `loadCharset()` with the `FONT` parameter: 80 bytes at 0x000 (R142). -/
def State.loadCharset (s : State) (font : Config.Font) : State := { s with mem := s.mem.putAll 0 font.toList }

/-- `loadRom(bytes)`: the image at 0x200 (R144). -/
def State.loadRom (s : State) (bytes : List Byte) : State := { s with mem := s.mem.putAll Config.romBase bytes }

/-- The default `FONT` of R143, `[from general knowledge, not in source]` by the spec's own mark. A claim about glyph
pixels names the font it assumes. PRESUMED, log entry 7. -/
def defaultFont : Config.Font := #v[
  0xF0, 0x90, 0x90, 0x90, 0xF0,  0x20, 0x60, 0x20, 0x20, 0x70,  0xF0, 0x10, 0xF0, 0x80, 0xF0,  0xF0, 0x10, 0xF0, 0x10, 0xF0,
  0x90, 0x90, 0xF0, 0x10, 0x10,  0xF0, 0x80, 0xF0, 0x10, 0xF0,  0xF0, 0x80, 0xF0, 0x90, 0xF0,  0xF0, 0x10, 0x20, 0x40, 0x40,
  0xF0, 0x90, 0xF0, 0x90, 0xF0,  0xF0, 0x90, 0xF0, 0x10, 0xF0,  0xF0, 0x90, 0xF0, 0x90, 0x90,  0xE0, 0x90, 0xE0, 0x90, 0xE0,
  0xF0, 0x80, 0x80, 0x80, 0xF0,  0xE0, 0x90, 0x90, 0x90, 0xE0,  0xF0, 0x80, 0xF0, 0x80, 0xF0,  0xF0, 0x80, 0xF0, 0x80, 0x80]

/-! ## Serialization (R138, R139) -/

/-- A serialized State as plain numbers, with the source's field names (R18). Its text format is outside the block
(R139); what it dumps is the whole State, neither the fault mark nor the inputs of a cycle being part of it (R35). DESIGN CHOICE, log entry 9. -/
structure Snapshot where
  memory     : List Nat
  v          : List Nat
  i          : Nat
  pc         : Nat
  stack      : List Nat
  display    : List Nat
  delayTimer : Nat
  soundTimer : Nat
  deriving DecidableEq, Repr

/-- The well-formedness of R36: sizes, and every entry within its width. -/
def Snapshot.wf (p : Snapshot) : Bool :=
  decide (p.memory.length = 4096) && p.memory.all (fun b => decide (b < 256))
    && decide (p.v.length = 16) && p.v.all (fun b => decide (b < 256))
    && decide (p.i < 65536) && decide (p.pc < 65536)
    && p.stack.all (fun a => decide (a < 65536))
    && stackWithin Config.stackDepth p.stack.length
    && decide (p.display.length = 2048) && p.display.all (fun c => decide (c < 2))
    && decide (p.delayTimer < 256) && decide (p.soundTimer < 256)

/-- `toJSON(state)`: a structural dump of the entire State (R139). -/
def State.serialize (s : State) : Snapshot where
  memory := (List.range 4096).map fun a => (s.mem.byteAt a).toNat
  v := s.regs.toList.map BitVec.toNat
  i := s.i.toNat
  pc := s.pc.toNat
  stack := s.stack.map BitVec.toNat
  display := (List.finRange 2048).map fun k => (s.display.cell k).toNat
  delayTimer := s.dt.toNat
  soundTimer := s.st.toNat

/-- The memory that holds the given bytes from address `a` upward, and the unlisted value elsewhere. -/
def Memory.ofBytes : (a : Nat) → List Byte → Memory
  | _, [] => []
  | a, b :: bs => if b = Memory.unlisted then Memory.ofBytes (a + 1) bs else (a, b) :: Memory.ofBytes (a + 1) bs

/-- The display whose cell `k` is entry `k` of the list. -/
def Display.ofCells (cells : List Nat) : Display :=
  Vector.ofFn fun row : Fin 32 => BitVec.ofFnLE fun col : Fin 64 => decide (cells.getD (col.val + 64 * row.val) 0 = 1)

/-- `fromJSON`: the whole State is replaced; the registers are re-cast to 8 bits (R139). The fault mark is neither set
nor cleared, and the host's inputs are no part of the State. -/
def State.restore (s : State) (p : Snapshot) : State :=
  { s with
    mem := Memory.ofBytes 0 (p.memory.map (BitVec.ofNat 8))
    regs := Vector.ofFn fun k => BitVec.ofNat 8 (p.v.getD k.val 0)
    i := BitVec.ofNat 16 p.i
    pc := BitVec.ofNat 16 p.pc
    stack := p.stack.map (BitVec.ofNat 16)
    display := Display.ofCells p.display
    dt := BitVec.ofNat 8 p.delayTimer
    st := BitVec.ofNat 8 p.soundTimer }

/-! ## The host's actions (R138) -/

/-- What the host can do between steps. -/
inductive HostAction where
  | reset
  /-- The `FONT` parameter is the argument (R10). -/
  | loadCharset (font : Config.Font)
  | loadRom (bytes : List Byte)
  /-- One step, with the key snapshot that the host passes and the random byte drawn (R75, R138). -/
  | cycle (keys : Keys) (draw : Byte)
  | tick
  | readDisplay
  | serialize
  | restore (saved : Snapshot)
  | stop
  deriving DecidableEq, Repr

/-- One host action. A refused action is not accepted (R139, R144); a cycle of a stopped core answers a fault (R120).
A reset builds a new State (R141); the inputs of later cycles, which the State does not hold (R35), go on (DESIGN CHOICE, log
entry 10). -/
def hostAct (a : HostAction) (s : State) : Result :=
  match a with
  | .reset => .next { State.reset with keys := s.keys, draw := s.draw, cycleNo := s.cycleNo }
  | .loadCharset font => .next (s.loadCharset font)
  | .loadRom bytes =>
    if bytes.length ≤ Config.romMax then .next (s.loadRom bytes) else .refused (.romTooLong bytes.length)
  | .cycle keys draw => step { s with keys := keys, draw := draw }
  | .tick => .next s.tick
  | .readDisplay => .next s
  | .serialize => .next s
  | .restore saved => if saved.wf then .next (s.restore saved) else .refused .illFormedSnapshot
  | .stop => .next s

/-- The state after a host action. A refused action leaves the State as it is, and a stopped core takes no step. -/
def afterHost (s : State) (a : HostAction) : State :=
  match hostAct a s with
  | .next t => t
  | .fault _ => s
  | .refused _ => s

/-- The state after a whole run of host actions. -/
def hostRun (s : State) (actions : List HostAction) : State := actions.foldl afterHost s

/-- The boot order of R145: reset, then the font, then the program. -/
def bootActions (font : Config.Font) (bytes : List Byte) : List HostAction :=
  [.reset, .loadCharset font, .loadRom bytes]

/-! ## The end of a run (R137) -/

/-- A run that a claim says ends at the address `halt` is over in this state: a fault is recorded, or `pc` is `halt`. -/
abbrev State.ended (s : State) (halt : Word) : Prop := s.fault ≠ none ∨ s.pc = halt

/-- The end of a run (R137): how many host actions pass until the run is over for the FIRST time, or `none` if it is not
over within them. A run that starts at `halt` is over at once (DEDUCED, log entry 20). -/
def endOfRun (halt : Word) (s : State) : List HostAction → Option Nat
  | [] => if s.ended halt then some 0 else none
  | a :: actions => if s.ended halt then some 0 else (endOfRun halt (afterHost s a) actions).map (· + 1)

/-- The state at the end of a run, where `endOfRun` stops it; if the run is not over within the actions, the state after
all of them. -/
def runToEnd (halt : Word) (s : State) : List HostAction → State
  | [] => s
  | a :: actions => if s.ended halt then s else runToEnd halt (afterHost s a) actions

end Sys2Proof.Machine
end

