-- ==== Sys2Proof/Safety.lean ====
section
/-! DEFINITION. What claims are stated in: well-formed states, running cores, justified faults, and frames
(spec/10_state.md R22 to R25, R33, R36; spec/60_exceptions.md R120 to R126; spec/70_reset_and_hazards.md R146). -/

namespace Sys2Proof.Machine

/-! ## Well-formed states (R36) -/

/-- A well-formed State (R36). The other clauses of R36 hold by the types of the fields. -/
def State.wf (s : State) : Bool := s.mem.wf && stackWithin Config.stackDepth s.stack.length

/-! ## Running cores and the range of `pc` (R25, R120) -/

/-- The core can take a step: no fault is recorded (R120). -/
abbrev State.running (s : State) : Prop := s.fault = none

/-- The program counter and every return address lie in the range that instructions can give them: at most 0x10FE for
`pc` and 4096 for a return address (R25, R86). -/
def State.pcBounded (s : State) : Prop := s.pc.toNat ≤ 0x10FE ∧ ∀ w ∈ s.stack, w.toNat ≤ 4096

/-! ## Justified faults (R122) -/

/-- How many bytes of data an instruction reads or writes, from `I` upward (R38). -/
def dataBytes : Instr → Nat
  | .drw _ _ n => n.val
  | .ldB _ => 3
  | .ldStore x => x.val + 1
  | .ldLoad x => x.val + 1
  | .cls | .ret | .jp _ | .call _ | .seImm _ _ | .sneImm _ _ | .seReg _ _ | .ldImm _ _ | .addImm _ _ | .ldReg _ _
  | .orReg _ _ | .andReg _ _ | .xorReg _ _ | .addReg _ _ | .sub _ _ | .shr _ _ | .subn _ _ | .shl _ _ | .sneReg _ _
  | .ldI _ | .jpV0 _ | .rnd _ _ | .skp _ | .sknp _ | .ldVxDt _ | .ldDtVx _ | .addI _ | .ldF _ => 0

/-- The record says why the instruction at its `pc` cannot complete in the state `s` (R122, R126). -/
def FaultRecord.justified (r : FaultRecord) (s : State) : Prop :=
  r.pc = s.pc ∧
  match r.cause with
  | .fetchOutOfRange => 4094 < s.pc.toNat
  | .illegalOpcode op => fetchAt s.mem s.pc.toNat = some op ∧ decode op = .reject (.illegalWord op)
  | .memOutOfRange addr op => fetchAt s.mem s.pc.toNat = some op ∧
      ∃ i, decode op = .instr i ∧ dataBytes i ≠ 0 ∧ 4095 < s.i.toNat + (dataBytes i - 1) ∧ addr = max s.i.toNat 4096
  | .stackUnderflow => ∃ op, fetchAt s.mem s.pc.toNat = some op ∧ decode op = .instr .ret ∧ s.stack = []
  | .stackOverflow => ∃ op nnn d, fetchAt s.mem s.pc.toNat = some op ∧ decode op = .instr (.call nnn) ∧
      Config.stackDepth = some d ∧ d ≤ s.stack.length
  | .keyOutOfRange vx op => fetchAt s.mem s.pc.toNat = some op ∧
      ∃ x, (decode op = .instr (.skp x) ∨ decode op = .instr (.sknp x)) ∧ vx = s.v x ∧ 15 < vx.toNat
  | .fontIndexOutOfRange vx op => fetchAt s.mem s.pc.toNat = some op ∧
      ∃ x, decode op = .instr (.ldF x) ∧ vx = s.v x ∧ 15 < vx.toNat

/-- Every recorded fault is justified by the state it stopped in. -/
def State.faultJustified (s : State) : Prop := ∀ r, s.fault = some r → r.justified s

/-! ## Frames -/

/-- The general registers that an instruction that completes writes: its destination, `VF` as a flag, or the block
`V0` to `Vx` (R22, R33). -/
def regsWritten : Instr → List RegIdx
  | .ldImm x _ | .addImm x _ | .ldReg x _ | .orReg x _ | .andReg x _ | .xorReg x _ | .rnd x _ | .ldVxDt x => [x]
  | .addReg x _ | .sub x _ | .shr x _ | .subn x _ | .shl x _ => [x, regF]
  | .drw _ _ _ => [regF]
  | .ldLoad x => (List.finRange 16).filter fun k => decide (k.val ≤ x.val)
  | .cls | .ret | .jp _ | .call _ | .seImm _ _ | .sneImm _ _ | .seReg _ _ | .sneReg _ _ | .ldI _ | .jpV0 _ | .skp _
  | .sknp _ | .ldDtVx _ | .addI _ | .ldF _ | .ldB _ | .ldStore _ => []

/-- The instructions that can raise a fault of their own on this hardware (R122). `CALL` is not among them, as its
`STACK_DEPTH` is unbounded (R86). -/
def canFault : Instr → Bool
  | .ret | .drw _ _ _ | .skp _ | .sknp _ | .ldF _ | .ldB _ | .ldStore _ | .ldLoad _ => true
  | .cls | .jp _ | .call _ | .seImm _ _ | .sneImm _ _ | .seReg _ _ | .ldImm _ _ | .addImm _ _ | .ldReg _ _ | .orReg _ _
  | .andReg _ _ | .xorReg _ _ | .addReg _ _ | .sub _ _ | .shr _ _ | .subn _ _ | .shl _ _ | .sneReg _ _ | .ldI _
  | .jpV0 _ | .rnd _ _ | .ldVxDt _ | .ldDtVx _ | .addI _ => false

/-- The instructions whose next `pc` is a target, not `pc + 2` or `pc + 4` (R24). -/
def setsTarget : Instr → Bool
  | .ret | .jp _ | .call _ | .jpV0 _ => true
  | .cls | .seImm _ _ | .sneImm _ _ | .seReg _ _ | .ldImm _ _ | .addImm _ _ | .ldReg _ _ | .orReg _ _ | .andReg _ _
  | .xorReg _ _ | .addReg _ _ | .sub _ _ | .shr _ _ | .subn _ _ | .shl _ _ | .sneReg _ _ | .ldI _ | .rnd _ _ | .drw _ _ _
  | .skp _ | .sknp _ | .ldVxDt _ | .ldDtVx _ | .addI _ | .ldF _ | .ldB _ | .ldStore _ | .ldLoad _ => false

/-- Every register outside `xs` is unchanged. -/
def RegsSameExcept (xs : List RegIdx) (s t : State) : Prop := ∀ j, j ∉ xs → t.v j = s.v j

/-- Every byte of memory at an address that `stored` does not hold of reads as before. -/
def MemSameExcept (stored : Nat → Prop) (s t : State) : Prop := ∀ a, ¬ stored a → t.mem.byteAt a = s.mem.byteAt a

/-- Every byte of memory reads as before. -/
def MemSame (s t : State) : Prop := ∀ a, t.mem.byteAt a = s.mem.byteAt a

/-- Every display cell is unchanged. -/
def DisplaySame (s t : State) : Prop := ∀ k, t.display.cell k = s.display.cell k

/-- The stack, the timers, the fault mark and the inputs of the cycle are unchanged. -/
structure RestSame (s t : State) : Prop where
  stack : t.stack = s.stack
  dt : t.dt = s.dt
  st : t.st = s.st
  fault : t.fault = s.fault
  keys : t.keys = s.keys
  draw : t.draw = s.draw
  cycleNo : t.cycleNo = s.cycleNo

/-- Everything but the registers in `xs` and `pc` is unchanged: the frame of an instruction that only writes registers. -/
structure OnlyRegs (xs : List RegIdx) (s t : State) : Prop where
  regs : RegsSameExcept xs s t
  i : t.i = s.i
  mem : MemSame s t
  display : DisplaySame s t
  rest : RestSame s t

/-- `exec` or `step` took a fault: the whole state stays as it was and the fault mark is set to `cause` at the `pc` of the
instruction (R15, R120, R123). -/
abbrev FaultedAt (cause : FaultCause) (s t : State) : Prop := t = { s with fault := some ⟨cause, s.pc⟩ }

/-! ## Reset (R141) -/

/-- Every piece of the State has the value that R141 gives it after reset. -/
structure ResetValues (t : State) : Prop where
  mem : ∀ a, t.mem.byteAt a = 0
  regs : ∀ x, t.v x = 0
  i : t.i = 0
  pc : t.pc = 0x200
  stack : t.stack = []
  display : ∀ k, t.display.cell k = false
  dt : t.dt = 0
  st : t.st = 0
  fault : t.fault = none

/-! ## Booting (R146) -/

/-- The launch predicate `Boot(S, bytes)` of R146, for a given `FONT`. -/
structure Boot (font : Config.Font) (bytes : List Byte) (s : State) : Prop where
  pc : s.pc = 0x200
  regs : ∀ x, s.v x = 0
  i : s.i = 0
  stack : s.stack = []
  display : ∀ k, s.display.cell k = false
  dt : s.dt = 0
  st : s.st = 0
  fontBytes : ∀ j (h : j < 80), s.mem.byteAt j = font[j]
  romBytes : ∀ j (h : j < bytes.length), s.mem.byteAt (0x200 + j) = bytes[j]
  otherBytes : ∀ a, 80 ≤ a → (a < 0x200 ∨ 0x200 + bytes.length ≤ a) → s.mem.byteAt a = 0
  fault : s.fault = none

/-! ## The sprite as one formula (R118) -/

/-- The sprite covers cell `k` with a set bit: for some row `r` and column offset `c`, the pixel at `(cx + c) mod 64`,
`(cy + r) mod 32` is cell `k` and bit `7 - c` of row `r` is 1. -/
def SpriteCovers (rows : List Byte) (cx cy : Nat) (k : Fin 2048) : Prop :=
  ∃ r, ∃ h : r < rows.length, ∃ c, c < 8 ∧ rows[r].getLsbD (7 - c) = true ∧
    k.val = ((cx + c) % 64) + ((cy + r) % 32) * 64

end Sys2Proof.Machine
end

