-- ==== Sys2Proof/Certificates/Slice0/Obligations.lean ====
section
/-! DEFINITION. The statements of the model, for the provers. Each docstring names the rule of spec/ that it formalises,
or the log entry that a clause of it rests on. -/

open Sys2Proof Sys2Proof.Machine

/-! ## Reset and well-formedness -/

/-- R141 and R21: what `reset()` leaves, both as the model's reset state and as the host's reset of any state. That reset
clears the fault mark is the spec's decision D3; the inputs of a cycle are the model's own (log entry 10). -/
def Obligations.ResetLeavesSpecValues : Prop :=
  ResetValues State.reset ∧ ∀ s, ∃ t, hostAct .reset s = .next t ∧ ResetValues t

/-- The reset state is well formed (R36), its program counter and stack are in the range of R25, and no fault is recorded
(R19, R141). That no fault is recorded is the spec's decision D3; the form of memory is log entry 1. -/
def Obligations.ResetMeetsInvariants : Prop :=
  State.reset.wf = true ∧ State.reset.pcBounded ∧ State.reset.fault = none

/-- R36: "Every step of the block maps a well-formed State to a well-formed State." The spec derives this sentence itself;
the form of memory is log entry 1. -/
def Obligations.StepKeepsWellFormed : Prop :=
  ∀ s t : State, s.wf = true → step s = .next t → t.wf = true

/-- R36 over whole runs: no list of host actions, cycles and restores among them, leads from a well-formed State to an
ill-formed one. That an ill-formed restore and a long image are refused are the spec's decisions D25 and D26; see log
entries 1, 5, 9 and 19. -/
def Obligations.HostRunKeepsWellFormed : Prop :=
  ∀ (s : State) (actions : List HostAction), s.wf = true → (hostRun s actions).wf = true

/-- Canonical memories with equal bytes at every address are equal data (the model's form of memory, log entry 1). -/
def Obligations.CanonicalMemoryIsExtensional : Prop :=
  ∀ m m' : Memory, m.wf = true → m'.wf = true → (∀ a, m.byteAt a = m'.byteAt a) → m = m'

/-! ## Encoding (R41, R58 to R72, R81) -/

/-- Words written out from the encodings of spec/opcode_table.json, legal and illegal, decode to what they stand for. The
two illegal words are the spec's decisions D12 and D13. -/
def Obligations.DecodeOfWrittenWords : Prop :=
  decode 0x00EE = .instr .ret ∧ decode 0x2ABC = .instr (.call 0xABC) ∧ decode 0x4C5E = .instr (.sneImm 0xC 0x5E) ∧
  decode 0x8AB4 = .instr (.addReg 0xA 0xB) ∧ decode 0xB3E7 = .instr (.jpV0 0x3E7) ∧ decode 0xD125 = .instr (.drw 1 2 5) ∧
  decode 0xE7A1 = .instr (.sknp 7) ∧ decode 0xF533 = .instr (.ldB 5) ∧ decode 0xF315 = .instr (.ldDtVx 3) ∧
  decode 0x5121 = .reject (.illegalWord 0x5121) ∧ decode 0xF00A = .reject (.illegalWord 0xF00A)

/-- Decode and encode agree: the word of any instruction, with every operand at every value, decodes to it. -/
def Obligations.DecodeOfEncodeIsIdentity : Prop :=
  ∀ i : Instr, decode (encode i) = .instr i

/-- Encode and decode agree the other way: a legal word is the word of the instruction it decodes to, so no bit of a word
is dropped, the ignored `y` of `SHR` and `SHL` included. That the syntax keeps the ignored `y` is log entry 17. -/
def Obligations.EncodeOfDecodeIsIdentity : Prop :=
  ∀ (op : Word) (i : Instr), decode op = .instr i → encode i = op

/-- R72: no word matches two rows of the opcode table, a word is legal exactly when it matches one, every operand value
gives a legal word, and no operand is out of range. The spec derives R72 itself. -/
def Obligations.LegalExactlyWhenOneRowMatches : Prop :=
  (∀ op : Word, (opcodeTable.filter (fun r => r.holds op)).length ≤ 1) ∧
  (∀ op : Word, (∃ i, decode op = .instr i) ↔ ∃ r ∈ opcodeTable, r.holds op = true) ∧
  (∀ i : Instr, (∃ j, decode (encode i) = .instr j) ∧ i.wellFormed = true)

/-- The illegal words, group by group (R64 to R69), by the number of the word. Groups 0x0, 0x5, 0x9 and `Fx0A`, `Fx18` are
the spec's decisions D11, D12 and D13. -/
def Obligations.IllegalWordsByGroup : Prop :=
  ∀ op : Word, decode op = .reject (.illegalWord op) ↔
    (op.toNat / 4096 = 0x0 ∧ op.toNat ≠ 0x00E0 ∧ op.toNat ≠ 0x00EE) ∨
    ((op.toNat / 4096 = 0x5 ∨ op.toNat / 4096 = 0x9) ∧ op.toNat % 16 ≠ 0) ∨
    (op.toNat / 4096 = 0x8 ∧ 0x8 ≤ op.toNat % 16 ∧ op.toNat % 16 ≠ 0xE) ∨
    (op.toNat / 4096 = 0xE ∧ op.toNat % 256 ∉ [0x9E, 0xA1]) ∨
    (op.toNat / 4096 = 0xF ∧ op.toNat % 256 ∉ [0x07, 0x15, 0x1E, 0x29, 0x33, 0x55, 0x65])

/-- R58: a byte sequence decodes two bytes at a time, high byte first, and leaves the rest; the bytes of an instruction's
word, followed by anything, decode to it. That nothing of a legal word is lost, the ignored `y` of `SHR` and `SHL`
included, rests on the syntax keeping `y` (DESIGN CHOICE, log entry 17). -/
def Obligations.BytesDecodeTwoAtATime : Prop :=
  (∀ (i : Instr) (rest : List Byte), decodeBytes (bytesOfWord (encode i) ++ rest) = .ok (i, rest)) ∧
  (∀ (bs rest : List Byte) (i : Instr), decodeBytes bs = .ok (i, rest) → bs = bytesOfWord (encode i) ++ rest)

/-- R81: `decode2` names an instruction exactly when `decode` reads one, and legal words that it names alike are the same
instruction: they do the same in every state. -/
def Obligations.DisassemblyNamesTheSameInstruction : Prop :=
  (∀ op : Word, decode2 op ≠ .illegal ↔ ∃ i, decode op = .instr i) ∧
  (∀ (op op' : Word) (i i' : Instr), decode op = .instr i → decode op' = .instr i' → decode2 op = decode2 op' →
    ∀ s, exec i s = exec i' s)

/-! ## The step (R41, R46, R47, R75, R120) -/

/-- R41 and R46: at every address from 0 to 4094, odd ones too, the fetched word has the byte at the lower address as its
high byte; above 4094 there is no word (R47). Odd addresses and the upper limit are the spec's decisions D6 and D5. -/
def Obligations.FetchIsBigEndian : Prop :=
  ∀ (m : Memory) (a : Nat),
    (a ≤ 4094 → ∃ op, fetchAt m a = some op ∧ op.toNat = (m.byteAt a).toNat * 256 + (m.byteAt (a + 1)).toNat) ∧
    (4094 < a → fetchAt m a = none)

/-- R75: when the bytes at `pc` decode to an instruction, a step of a running core is that instruction's `exec`, and then
the next cycle gets fresh inputs (log entry 3). -/
def Obligations.StepRunsDecodedInstruction : Prop :=
  ∀ (s : State) (op : Word) (i : Instr), s.fault = none → fetchAt s.mem s.pc.toNat = some op → decode op = .instr i →
    ∃ t, exec i s = .next t ∧ step s = .next { t with
      keys := Config.freeKeys (t.cycleNo + 1), draw := Config.freeDraw (t.cycleNo + 1), cycleNo := t.cycleNo + 1 }

/-- R47: a step at `pc > 4094` raises FetchOutOfRange(pc) and commits nothing else; the inputs of the next cycle are the
model's own (log entry 3). The fault is the spec's decisions D2, D3 and D5; its form is log entry 4. -/
def Obligations.FetchOutsideMemoryFaults : Prop :=
  ∀ s : State, s.fault = none → 4094 < s.pc.toNat →
    ∃ t, step s = .next t.freshInputs ∧ FaultedAt .fetchOutOfRange s t

/-- R70 and R121: a fetched word that decodes to no instruction raises IllegalOpcode(op, pc) and commits nothing else. The
fault mark and that nothing is committed are the spec's decisions D2 and D3; the form of a fault is log entry 4. -/
def Obligations.IllegalWordFaults : Prop :=
  ∀ (s : State) (op : Word), s.fault = none → fetchAt s.mem s.pc.toNat = some op → decode op = .reject (.illegalWord op) →
    ∃ t, step s = .next t.freshInputs ∧ FaultedAt (.illegalOpcode op) s t

/-- R120: a stopped core takes no step. R19: only a reset clears the fault mark, whatever else the host does. The mark is
the spec's decision D3; its outcome and the host's actions on a stopped core are log entries 4, 5 and 19. -/
def Obligations.OnlyResetClearsFaultMark : Prop :=
  ∀ (s : State) (r : FaultRecord), s.fault = some r →
    step s = .fault (.stopped r) ∧
    (∀ a : HostAction, a ≠ .reset → (afterHost s a).fault = some r) ∧ (afterHost s .reset).fault = none

/-- R120: every instruction ends its cycle in a next state, completed or with its fault recorded; none stops the model.
That a fault is a next state is log entry 4. -/
def Obligations.ExecAlwaysAnswersNext : Prop :=
  ∀ (i : Instr) (s : State), ∃ t, exec i s = .next t

/-- R15, R120, R122, R126: a step faults exactly when a cause of R122 stands in the state before it, it records that
cause, and it changes nothing else of the State; so the record is justified by the state that is left, too. The inputs of
the next cycle are the model's own (log entry 3). The causes are the spec's decisions D2, D4, D5, D9, D10, D18, D20 and
D28; the recorded word is log entry 11. -/
def Obligations.FaultsArePreciseAndJustified : Prop :=
  ∀ s t : State, step s = .next t →
    (∀ r : FaultRecord, t.fault = some r ↔ r.justified s) ∧
    (t.fault ≠ none → t = { s with fault := t.fault, keys := t.keys, draw := t.draw, cycleNo := t.cycleNo }) ∧
    t.faultJustified

/-- R124: whether a step faults, and what it records, depends on the State alone: not on the keys, the draw or the timers.
The spec derives this sentence itself. -/
def Obligations.FaultsDependOnStateOnly : Prop :=
  ∀ (s t u : State) (keys : Keys) (draw dt st : Byte),
    step s = .next t → step { s with keys := keys, draw := draw, dt := dt, st := st } = .next u → u.fault = t.fault

/-- R78: only `SKP` and `SKNP` read the key snapshot, and only `RND` reads the random byte: any other instruction does the
same whatever the input is, and leaves the input alone. -/
def Obligations.InputsReadOnlyByKeySkipsAndRandom : Prop :=
  ∀ (i : Instr) (s t : State), exec i s = .next t →
    ((∀ x, i ≠ .skp x) → (∀ x, i ≠ .sknp x) →
      ∀ keys, exec i { s with keys := keys } = .next { t with keys := keys }) ∧
    ((∀ x kk, i ≠ .rnd x kk) → ∀ draw, exec i { s with draw := draw } = .next { t with draw := draw })

/-- R25 and R86: from a state whose `pc` is at most 0x10FE and whose return addresses are at most 4096, a step leads to
another such state, so the program counter never leaves its 16 bits. Unmasked targets and the pushed value are the spec's
decisions D7 and D8; see log entry 14. -/
def Obligations.StepKeepsPcBounded : Prop :=
  ∀ s t : State, s.pcBounded → step s = .next t → t.pcBounded

/-- R24 and R76: the next `pc` of an instruction that completes, by kind of instruction, and for a skip by its condition.
`s.pc ≤ 4094` is what the fetch guarantees. The spec derives R76 itself; see log entry 14. -/
def Obligations.NextPcByKind : Prop :=
  ∀ (i : Instr) (s t : State), s.pc.toNat ≤ 4094 → s.fault = none → exec i s = .next t → t.fault = none →
    match i with
    | .jp nnn => t.pc.toNat = nnn.toNat
    | .call nnn => t.pc.toNat = nnn.toNat
    | .jpV0 nnn => t.pc.toNat = (s.v 0).toNat + nnn.toNat
    | .ret => s.stack.getLast? = some t.pc
    | .seImm x kk => t.pc.toNat = s.pc.toNat + (if (s.v x).toNat = kk.toNat then 4 else 2)
    | .sneImm x kk => t.pc.toNat = s.pc.toNat + (if (s.v x).toNat = kk.toNat then 2 else 4)
    | .seReg x y => t.pc.toNat = s.pc.toNat + (if (s.v x).toNat = (s.v y).toNat then 4 else 2)
    | .sneReg x y => t.pc.toNat = s.pc.toNat + (if (s.v x).toNat = (s.v y).toNat then 2 else 4)
    | .skp x => ∃ h : (s.v x).toNat < 16, t.pc.toNat = s.pc.toNat + (if s.keys[(s.v x).toNat] = true then 4 else 2)
    | .sknp x => ∃ h : (s.v x).toNat < 16, t.pc.toNat = s.pc.toNat + (if s.keys[(s.v x).toNat] = true then 2 else 4)
    | _ => t.pc.toNat = s.pc.toNat + 2

/-- R33, R38, R22, R26 to R29: which instructions write each piece of state. A general register changes only under the
instructions that R33 lists for it. The fault mark changes only when an instruction that R122 names faults, and then
nothing else changes. Every instruction that completes writes `pc`: it moves on or takes its target, whose value is the
matter of another statement. Nothing writes the sound timer or the inputs of the cycle, which are the model's own fields
(log entry 3). That nothing else writes `I`, that nothing writes `ST`, that a fault commits nothing and that `CALL` cannot
fault are the spec's decisions D15, D31, D2 and D10; the spec derives the table of R33 itself. -/
def Obligations.WritersOfEachStateElement : Prop :=
  ∀ (i : Instr) (s t : State), exec i s = .next t →
    RegsSameExcept (regsWritten i) s t ∧
    ((∀ x, i ≠ .ldB x) → (∀ x, i ≠ .ldStore x) → MemSame s t) ∧
    ((∀ nnn, i ≠ .ldI nnn) → (∀ x, i ≠ .addI x) → (∀ x, i ≠ .ldF x) → t.i = s.i) ∧
    ((∀ nnn, i ≠ .call nnn) → i ≠ .ret → t.stack = s.stack) ∧
    (i ≠ .cls → (∀ x y n, i ≠ .drw x y n) → DisplaySame s t) ∧
    ((∀ x, i ≠ .ldDtVx x) → t.dt = s.dt) ∧
    (canFault i = false → t.fault = s.fault) ∧
    ((∃ c, FaultedAt c s t) ∨ (t.fault = s.fault ∧ (setsTarget i = false → t.pc ≠ s.pc))) ∧
    t.st = s.st ∧ t.keys = s.keys ∧ t.draw = s.draw ∧ t.cycleNo = s.cycleNo

/-! ## Control flow (R83 to R87) -/

/-- R84: `RET` pops the last entry of the stack into `pc` as it is; on an empty stack it faults and changes nothing else.
The popped value taken as it is and the fault are the spec's decisions D8 and D9. -/
def Obligations.RetPopsReturnAddress : Prop :=
  ∀ s : State,
    (∀ st w, s.stack = st ++ [w] → ∃ t, exec .ret s = .next t ∧ t = { s with pc := w, stack := st } ∧ MemSame s t) ∧
    (s.stack = [] → ∃ t, exec .ret s = .next t ∧ FaultedAt .stackUnderflow s t)

/-- R85: `JP nnn` sets `pc` to `nnn` and changes nothing else. -/
def Obligations.JpSetsPc : Prop :=
  ∀ (nnn : Addr12) (s : State), ∃ t, exec (.jp nnn) s = .next t ∧ t.pc.toNat = nnn.toNat ∧ OnlyRegs [] s t

/-- R85: a jump to its own address, the way a program stops (R137), changes nothing for as long as the host only calls
cycles, ticks the timers and looks: each timer goes down by one for each tick (R131), floored at 0, the rest of the State
stays as it is, and the inputs of a cycle are the model's own (log entry 3). What the host may do meanwhile is log entry
5. -/
def Obligations.SelfJumpHoldsState : Prop :=
  ∀ (nnn : Addr12) (s t : State) (actions : List HostAction), s.fault = none → s.pc.toNat = nnn.toNat →
    fetchAt s.mem s.pc.toNat = some (encode (.jp nnn)) →
    (∀ a ∈ actions, (∃ keys draw, a = .cycle keys draw) ∨ a = .tick ∨ a = .readDisplay ∨ a = .serialize ∨ a = .stop) →
    hostRun s actions = t →
    t.dt.toNat = s.dt.toNat - actions.count .tick ∧ t.st.toNat = s.st.toNat - actions.count .tick ∧
    t = { s with dt := t.dt, st := t.st, keys := t.keys, draw := t.draw, cycleNo := t.cycleNo }

/-- R86: `CALL nnn` pushes the address of the next instruction and sets `pc` to `nnn`. This hardware's stack is unbounded,
so `CALL` never faults; at a finite `STACK_DEPTH` it faults exactly when the stack holds that many entries. The pushed
value and the depth are the spec's decisions D8 and D10; the form of the depth is log entry 6. -/
def Obligations.CallPushesReturnAddress : Prop :=
  ∀ (nnn : Addr12) (s : State),
    (∃ t, exec (.call nnn) s = .next t ∧ t.pc.toNat = nnn.toNat ∧ t.stack = s.stack ++ [s.pc + 2] ∧
      t = { s with pc := t.pc, stack := t.stack } ∧ MemSame s t) ∧
    (s.pc.toNat ≤ 4094 → (s.pc + 2).toNat = s.pc.toNat + 2) ∧
    (∀ d, s.stack.length < d → callWithDepth (some d) nnn s = exec (.call nnn) s) ∧
    (∀ d, s.stack.length = d → ∃ t, callWithDepth (some d) nnn s = .next t ∧ FaultedAt .stackOverflow s t)

/-- R84 and R86 together: a `RET` right after a `CALL` resumes at the instruction after the `CALL`, with the stack as it
was. The pushed value is the spec's decision D8. -/
def Obligations.RetAfterCallResumes : Prop :=
  ∀ (nnn : Addr12) (s t u : State), exec (.call nnn) s = .next t → exec .ret t = .next u →
    u = { s with pc := s.pc + 2 }

/-- R87: `JP V0, nnn` sets `pc` to the sum `V0 + nnn`, not masked, and changes nothing else. That the sum is not masked is
the spec's decision D7. -/
def Obligations.JpV0AddsUnmasked : Prop :=
  ∀ (nnn : Addr12) (s : State), ∃ t, exec (.jpV0 nnn) s = .next t ∧ t.pc.toNat = (s.v 0).toNat + nnn.toNat ∧ OnlyRegs [] s t

/-! ## Skips (R88 to R94) -/

/-- R89 and R90: `SE Vx, kk` and `SNE Vx, kk`. -/
def Obligations.ImmediateSkips : Prop :=
  ∀ (x : RegIdx) (kk : Byte) (s : State),
    (∃ t, exec (.seImm x kk) s = .next t ∧ t.pc = s.pc + (if (s.v x).toNat = kk.toNat then 4 else 2) ∧ OnlyRegs [] s t) ∧
    (∃ t, exec (.sneImm x kk) s = .next t ∧ t.pc = s.pc + (if (s.v x).toNat = kk.toNat then 2 else 4) ∧ OnlyRegs [] s t)

/-- R91 and R92: `SE Vx, Vy` and `SNE Vx, Vy`; with `d != 0` the word is illegal. -/
def Obligations.RegisterSkips : Prop :=
  ∀ (x y : RegIdx) (s : State),
    (∃ t, exec (.seReg x y) s = .next t ∧ t.pc = s.pc + (if (s.v x).toNat = (s.v y).toNat then 4 else 2) ∧ OnlyRegs [] s t) ∧
    (∃ t, exec (.sneReg x y) s = .next t ∧ t.pc = s.pc + (if (s.v x).toNat = (s.v y).toNat then 2 else 4) ∧ OnlyRegs [] s t) ∧
    (∀ d : Fin 16, d ≠ 0 → decode (formatXYN 0x5 x y d) = .reject (.illegalWord (formatXYN 0x5 x y d)) ∧
      decode (formatXYN 0x9 x y d) = .reject (.illegalWord (formatXYN 0x9 x y d)))

/-- R93 and R94: `SKP` and `SKNP` test the key numbered `Vx` in this step's snapshot; a number above 0xF faults. The fault
and the snapshot are the spec's decisions D20 and D24; the recorded word is log entry 11. -/
def Obligations.KeySkips : Prop :=
  ∀ (x : RegIdx) (s : State),
    (∀ h : (s.v x).toNat < 16,
      (∃ t, exec (.skp x) s = .next t ∧ t.pc = s.pc + (if s.keys[(s.v x).toNat] = true then 4 else 2) ∧ OnlyRegs [] s t) ∧
      (∃ t, exec (.sknp x) s = .next t ∧ t.pc = s.pc + (if s.keys[(s.v x).toNat] = true then 2 else 4) ∧ OnlyRegs [] s t)) ∧
    (15 < (s.v x).toNat →
      (∃ t, exec (.skp x) s = .next t ∧ FaultedAt (.keyOutOfRange (s.v x) (encode (.skp x))) s t) ∧
      (∃ t, exec (.sknp x) s = .next t ∧ FaultedAt (.keyOutOfRange (s.v x) (encode (.sknp x))) s t))

/-! ## Registers and arithmetic (R95 to R107) -/

/-- R96 and R98: `LD Vx, kk` and `LD Vx, Vy`. -/
def Obligations.RegisterLoads : Prop :=
  ∀ (x y : RegIdx) (kk : Byte) (s : State),
    (∃ t, exec (.ldImm x kk) s = .next t ∧ t.v x = kk ∧ t.pc = s.pc + 2 ∧ OnlyRegs [x] s t) ∧
    (∃ t, exec (.ldReg x y) s = .next t ∧ t.v x = s.v y ∧ t.pc = s.pc + 2 ∧ OnlyRegs [x] s t)

/-- R97: `ADD Vx, kk` adds modulo 256 and writes no flag: `VF` changes only as the destination. -/
def Obligations.AddImmediateWritesNoFlag : Prop :=
  ∀ (x : RegIdx) (kk : Byte) (s : State), ∃ t, exec (.addImm x kk) s = .next t ∧
    (t.v x).toNat = ((s.v x).toNat + kk.toNat) % 256 ∧ t.pc = s.pc + 2 ∧ OnlyRegs [x] s t

/-- R99 to R101: `OR`, `AND` and `XOR`, bit by bit; `VF` changes only as the destination. That no flag is written is the
spec's decision D14. -/
def Obligations.LogicWritesNoFlag : Prop :=
  ∀ (x y : RegIdx) (s : State),
    (∃ t, exec (.orReg x y) s = .next t ∧ (∀ k, k < 8 → (t.v x).getLsbD k = ((s.v x).getLsbD k || (s.v y).getLsbD k)) ∧
      t.pc = s.pc + 2 ∧ OnlyRegs [x] s t) ∧
    (∃ t, exec (.andReg x y) s = .next t ∧ (∀ k, k < 8 → (t.v x).getLsbD k = ((s.v x).getLsbD k && (s.v y).getLsbD k)) ∧
      t.pc = s.pc + 2 ∧ OnlyRegs [x] s t) ∧
    (∃ t, exec (.xorReg x y) s = .next t ∧ (∀ k, k < 8 → (t.v x).getLsbD k = ((s.v x).getLsbD k ^^ (s.v y).getLsbD k)) ∧
      t.pc = s.pc + 2 ∧ OnlyRegs [x] s t)

/-- R102: `ADD Vx, Vy` writes the sum modulo 256, then the carry to `VF`; with `x = 0xF` the carry is what remains. -/
def Obligations.AddRegisterCarry : Prop :=
  ∀ (x y : RegIdx) (s : State), ∃ t, exec (.addReg x y) s = .next t ∧
    (x ≠ regF → (t.v x).toNat = ((s.v x).toNat + (s.v y).toNat) % 256) ∧
    (t.v regF).toNat = (if (s.v x).toNat + (s.v y).toNat > 255 then 1 else 0) ∧
    t.pc = s.pc + 2 ∧ OnlyRegs [x, regF] s t

/-- R103: `SUB Vx, Vy` writes the difference modulo 256, then `VF = 1` only if `Vx > Vy`, strictly. -/
def Obligations.SubStrictFlag : Prop :=
  ∀ (x y : RegIdx) (s : State), ∃ t, exec (.sub x y) s = .next t ∧
    (x ≠ regF → (t.v x).toNat = ((s.v x).toNat + 256 - (s.v y).toNat) % 256) ∧
    (t.v regF).toNat = (if (s.v x).toNat > (s.v y).toNat then 1 else 0) ∧
    t.pc = s.pc + 2 ∧ OnlyRegs [x, regF] s t

/-- R105: `SUBN Vx, Vy` writes `Vy - Vx` modulo 256, then `VF = 1` only if `Vy > Vx`, strictly. -/
def Obligations.SubnStrictFlag : Prop :=
  ∀ (x y : RegIdx) (s : State), ∃ t, exec (.subn x y) s = .next t ∧
    (x ≠ regF → (t.v x).toNat = ((s.v y).toNat + 256 - (s.v x).toNat) % 256) ∧
    (t.v regF).toNat = (if (s.v y).toNat > (s.v x).toNat then 1 else 0) ∧
    t.pc = s.pc + 2 ∧ OnlyRegs [x, regF] s t

/-- R104: `SHR Vx` halves `Vx` and writes its old bit 0 to `VF`; the encoded `y` has no effect. That `y` has no effect is
the spec's decision D16. -/
def Obligations.ShrShiftsOutLowBit : Prop :=
  ∀ (x y : RegIdx) (s : State), ∃ t, exec (.shr x y) s = .next t ∧
    (x ≠ regF → (t.v x).toNat = (s.v x).toNat / 2) ∧ (t.v regF).toNat = (s.v x).toNat % 2 ∧
    t.pc = s.pc + 2 ∧ OnlyRegs [x, regF] s t ∧ ∀ y', exec (.shr x y') s = .next t

/-- R106: `SHL Vx` doubles `Vx` modulo 256 and writes its old bit 7 to `VF`; the encoded `y` has no effect. That `y` has
no effect is the spec's decision D16. -/
def Obligations.ShlShiftsOutHighBit : Prop :=
  ∀ (x y : RegIdx) (s : State), ∃ t, exec (.shl x y) s = .next t ∧
    (x ≠ regF → (t.v x).toNat = 2 * (s.v x).toNat % 256) ∧ (t.v regF).toNat = (s.v x).toNat / 128 ∧
    t.pc = s.pc + 2 ∧ OnlyRegs [x, regF] s t ∧ ∀ y', exec (.shl x y') s = .next t

/-- R107: `RND Vx, kk` writes the step's random byte masked with `kk`, whatever the byte is. The free draw is the spec's
decision D21; where it stands is log entry 3. -/
def Obligations.RndMasksTheDraw : Prop :=
  ∀ (x : RegIdx) (kk : Byte) (s : State), ∃ t, exec (.rnd x kk) s = .next t ∧
    (∀ k, k < 8 → (t.v x).getLsbD k = (s.draw.getLsbD k && kk.getLsbD k)) ∧ t.pc = s.pc + 2 ∧ OnlyRegs [x] s t

/-! ## The index register and memory (R48, R49, R108 to R113) -/

/-- R108 and R109: `LD I, nnn`, and `ADD I, Vx` modulo 2^16; no register is written, `VF` included. The wrap and the
untouched `VF` are the spec's decision D17. -/
def Obligations.IndexLoadAndAdd : Prop :=
  ∀ (nnn : Addr12) (x : RegIdx) (s : State),
    (∃ t, exec (.ldI nnn) s = .next t ∧ t.i.toNat = nnn.toNat ∧ t = { s with i := t.i, pc := s.pc + 2 } ∧ MemSame s t) ∧
    (∃ t, exec (.addI x) s = .next t ∧ t.i.toNat = (s.i.toNat + (s.v x).toNat) % 65536 ∧
      t = { s with i := t.i, pc := s.pc + 2 } ∧ MemSame s t)

/-- R110: `LD F, Vx` points `I` at glyph `Vx`, five bytes a glyph; a digit above 0xF faults. The address `5*d` and the
fault are the spec's decision D18; the recorded word is log entry 11. -/
def Obligations.FontAddressOfDigit : Prop :=
  ∀ (x : RegIdx) (s : State),
    ((s.v x).toNat ≤ 15 → ∃ t, exec (.ldF x) s = .next t ∧ t.i.toNat = 5 * (s.v x).toNat ∧
      t = { s with i := t.i, pc := s.pc + 2 } ∧ MemSame s t) ∧
    (15 < (s.v x).toNat → ∃ t, exec (.ldF x) s = .next t ∧
      FaultedAt (.fontIndexOutOfRange (s.v x) (encode (.ldF x))) s t)

/-- R111: `LD B, Vx` stores hundreds, tens and ones at `I`, `I+1` and `I+2` and no other byte; if `I + 2 > 4095` it faults
with the first of the three addresses outside memory, and stores nothing. The fault is the spec's decisions D2 and D4; the
form of memory is log entry 1, the recorded word log entry 11. -/
def Obligations.BcdStoresThreeDigits : Prop :=
  ∀ (x : RegIdx) (s : State), s.mem.wf = true →
    (s.i.toNat + 2 ≤ 4095 → ∃ t, exec (.ldB x) s = .next t ∧
      (t.mem.byteAt (s.dataAddr 0)).toNat = (s.v x).toNat / 100 ∧
      (t.mem.byteAt (s.dataAddr 1)).toNat = (s.v x).toNat / 10 % 10 ∧
      (t.mem.byteAt (s.dataAddr 2)).toNat = (s.v x).toNat % 10 ∧
      MemSameExcept (fun a => s.dataAddr 0 ≤ a ∧ a ≤ s.dataAddr 2) s t ∧ t = { s with mem := t.mem, pc := s.pc + 2 }) ∧
    (4095 < s.i.toNat + 2 → ∃ t, exec (.ldB x) s = .next t ∧
      FaultedAt (.memOutOfRange (max s.i.toNat 4096) (encode (.ldB x))) s t)

/-- R112: `LD [I], Vx` stores `V0` to `Vx` at `I` to `I+x` and no other byte, and leaves `I`; if the block leaves memory
it faults with its first address outside and stores nothing. The fault and the unchanged `I` are the spec's decisions D2,
D4 and D15; the form of memory is log entry 1, the recorded word log entry 11. -/
def Obligations.BlockStore : Prop :=
  ∀ (x : RegIdx) (s : State), s.mem.wf = true →
    (s.i.toNat + x.val ≤ 4095 → ∃ t, exec (.ldStore x) s = .next t ∧
      (∀ k : RegIdx, k.val ≤ x.val → t.mem.byteAt (s.dataAddr k.val) = s.v k) ∧
      MemSameExcept (fun a => s.dataAddr 0 ≤ a ∧ a ≤ s.dataAddr x.val) s t ∧ t = { s with mem := t.mem, pc := s.pc + 2 }) ∧
    (4095 < s.i.toNat + x.val → ∃ t, exec (.ldStore x) s = .next t ∧
      FaultedAt (.memOutOfRange (max s.i.toNat 4096) (encode (.ldStore x))) s t)

/-- R113: `LD Vx, [I]` loads `V0` to `Vx` from `I` to `I+x` and leaves `I` and memory; if the block leaves memory it
faults with its first address outside and loads nothing. The fault and the unchanged `I` are the spec's decisions D2, D4
and D15; the recorded word is log entry 11. -/
def Obligations.BlockLoad : Prop :=
  ∀ (x : RegIdx) (s : State),
    (s.i.toNat + x.val ≤ 4095 → ∃ t, exec (.ldLoad x) s = .next t ∧
      (∀ k : RegIdx, t.v k = if k.val ≤ x.val then s.mem.byteAt (s.dataAddr k.val) else s.v k) ∧
      t.pc = s.pc + 2 ∧ OnlyRegs ((List.finRange 16).filter fun k => decide (k.val ≤ x.val)) s t) ∧
    (4095 < s.i.toNat + x.val → ∃ t, exec (.ldLoad x) s = .next t ∧
      FaultedAt (.memOutOfRange (max s.i.toNat 4096) (encode (.ldLoad x))) s t)

/-- R112 and R113 together: a block load right after a block store of the same registers changes nothing but `pc`. The
unchanged `I` is the spec's decision D15. -/
def Obligations.LoadAfterStoreRestores : Prop :=
  ∀ (x : RegIdx) (s t u : State), s.mem.wf = true → s.i.toNat + x.val ≤ 4095 →
    exec (.ldStore x) s = .next t → exec (.ldLoad x) t = .next u →
    u = { t with pc := t.pc + 2 } ∧ ∀ k, u.v k = s.v k

/-- R56 and R148: bytes written by `Fx55` are what the next fetch there reads, with no delay. The spec derives R56 and
R148 itself. -/
def Obligations.StoredCodeIsFetched : Prop :=
  ∀ (x k l : RegIdx) (s t : State), s.mem.wf = true → s.i.toNat + x.val ≤ 4095 → l.val = k.val + 1 → l.val ≤ x.val →
    exec (.ldStore x) s = .next t →
    fetchAt t.mem (s.dataAddr k.val) = some (wordOfBytes (s.v k) (s.v l))

/-! ## Timers (R114 to R116, R131) -/

/-- R114 and R115: `LD Vx, DT` and `LD DT, Vx`. -/
def Obligations.DelayTimerCopies : Prop :=
  ∀ (x : RegIdx) (s : State),
    (∃ t, exec (.ldVxDt x) s = .next t ∧ t.v x = s.dt ∧ t.pc = s.pc + 2 ∧ OnlyRegs [x] s t) ∧
    (∃ t, exec (.ldDtVx x) s = .next t ∧ t.dt = s.v x ∧ t = { s with dt := t.dt, pc := s.pc + 2 } ∧ MemSame s t)

/-- R131: the host's `tick()` takes both timers down by one, floored at 0, and changes nothing else. That a tick is a host
action of no rate is the spec's decision D23; see log entry 5. -/
def Obligations.TickCountsDownToZero : Prop :=
  ∀ s : State, ∃ t, hostAct .tick s = .next t ∧ t.dt.toNat = s.dt.toNat - 1 ∧ t.st.toNat = s.st.toNat - 1 ∧
    t = { s with dt := t.dt, st := t.st }

/-- R29: a sound timer that is 0 stays 0 whatever programs run, unless the host restores a serialized State. The spec
derives this sentence itself and names decision D31. -/
def Obligations.SoundTimerStaysZero : Prop :=
  ∀ (s : State) (actions : List HostAction), s.st = 0 → (∀ p, HostAction.restore p ∉ actions) → (hostRun s actions).st = 0

/-! ## Display (R117 to R119) -/

/-- R117: `CLS` zeroes all 2048 cells and changes nothing else but `pc`. -/
def Obligations.ClsZeroesDisplay : Prop :=
  ∀ s : State, ∃ t, exec .cls s = .next t ∧ (∀ k, t.display.cell k = false) ∧
    t = { s with display := t.display, pc := s.pc + 2 } ∧ MemSame s t

/-- R118: `DRW Vx, Vy, n` flips exactly the cells that the sprite at `I` covers with a set bit, and writes `VF = 1`
exactly when one of them was 1; if the sprite leaves memory it faults with its first address outside and draws nothing.
That bit 7 is the leftmost pixel is the spec's own decision (D22). The fault is D2 and D4; see log entry 8 for the bit
order and log entry 11 for the recorded word. -/
def Obligations.DrwFlipsCoveredCells : Prop :=
  ∀ (x y : RegIdx) (n : Fin 16) (s : State),
    (n.val = 0 ∨ s.i.toNat + n.val ≤ 4096 → ∃ t, exec (.drw x y n) s = .next t ∧
      (∀ k, (t.display.cell k ≠ s.display.cell k ↔
        SpriteCovers ((List.range n.val).map fun r => s.mem.byteAt (s.dataAddr r)) (s.v x).toNat (s.v y).toNat k)) ∧
      (t.v regF = 1 ∨ t.v regF = 0) ∧
      (t.v regF = 1 ↔ ∃ k, s.display.cell k = true ∧ t.display.cell k = false) ∧
      RegsSameExcept [regF] s t ∧ MemSame s t ∧
      t = { s with display := t.display, regs := t.regs, pc := s.pc + 2 }) ∧
    (n.val ≠ 0 → 4096 < s.i.toNat + n.val → ∃ t, exec (.drw x y n) s = .next t ∧
      FaultedAt (.memOutOfRange (max s.i.toNat 4096) (encode (.drw x y n))) s t)

/-- R119, its four laws: `n = 0` changes no cell and clears `VF`; a sprite's pixels lie on distinct cells; drawing the
same sprite twice at the same place restores the display; a draw on a clear display does not collide. The second of two
draws collides exactly when the sprite covers a cell that was 0 before the first, which on a clear display is when it has
a set bit: R119 states the clear display only in its quotation of the source (log entry 13). The spec derives R119 itself.
-/
def Obligations.DrwLaws : Prop :=
  (∀ (x y : RegIdx) (s t : State), exec (.drw x y 0) s = .next t → DisplaySame s t ∧ t.v regF = 0) ∧
  (∀ cx cy r r' c c' : Nat, r < 15 → r' < 15 → c < 8 → c' < 8 →
    cellAt (cx + c) (cy + r) = cellAt (cx + c') (cy + r') → r = r' ∧ c = c') ∧
  (∀ (x y : RegIdx) (n : Fin 16) (s t u : State), n.val = 0 ∨ s.i.toNat + n.val ≤ 4096 → exec (.drw x y n) s = .next t →
    t.v x = s.v x → t.v y = s.v y → exec (.drw x y n) t = .next u →
    DisplaySame s u ∧
    (u.v regF = 1 ↔ ∃ k, s.display.cell k = false ∧
      SpriteCovers ((List.range n.val).map fun r => s.mem.byteAt (s.dataAddr r)) (s.v x).toNat (s.v y).toNat k) ∧
    ((∀ k, s.display.cell k = false) → (u.v regF = 1 ↔ ∃ r, r < n.val ∧ s.mem.byteAt (s.dataAddr r) ≠ 0))) ∧
  (∀ (x y : RegIdx) (n : Fin 16) (s t : State), n.val = 0 ∨ s.i.toNat + n.val ≤ 4096 → (∀ k, s.display.cell k = false) →
    exec (.drw x y n) s = .next t → t.v regF = 0)

/-! ## The host (R138 to R146) -/

/-- R142: `loadCharset` copies the 80 bytes of the font to 0x000 and changes nothing else. The font as a parameter is the
spec's decision D19; see log entry 7. -/
def Obligations.LoadCharsetCopiesFont : Prop :=
  ∀ (font : Config.Font) (s : State), s.mem.wf = true → ∃ t, hostAct (.loadCharset font) s = .next t ∧
    (∀ j (h : j < 80), t.mem.byteAt j = font[j]) ∧ MemSameExcept (fun a => a < 80) s t ∧ t = { s with mem := t.mem }

/-- R144: `loadRom` copies an image of up to 3584 bytes to 0x200 and changes nothing else; a longer one is refused. The
limit is the spec's decision D25; see log entry 19. -/
def Obligations.LoadRomCopiesImage : Prop :=
  ∀ (bytes : List Byte) (s : State), s.mem.wf = true →
    (bytes.length ≤ 3584 → ∃ t, hostAct (.loadRom bytes) s = .next t ∧
      (∀ j (h : j < bytes.length), t.mem.byteAt (0x200 + j) = bytes[j]) ∧
      MemSameExcept (fun a => 0x200 ≤ a ∧ a < 0x200 + bytes.length) s t ∧ t = { s with mem := t.mem }) ∧
    (3584 < bytes.length → hostAct (.loadRom bytes) s = .refused (.romTooLong bytes.length) ∧ afterHost s (.loadRom bytes) = s)

/-- R145 and R146: reset, then the font, then the program, from any state, establish the launch predicate. The spec
derives R146 itself; see log entry 12. -/
def Obligations.BootEstablishesLaunchState : Prop :=
  ∀ (font : Config.Font) (bytes : List Byte) (s : State), bytes.length ≤ 3584 →
    Boot font bytes (hostRun s (bootActions font bytes))

/-- R139: restoring the serialized form of a well-formed State gives that State again, in whatever state the host does it;
the fault mark and the inputs of a cycle are not part of it. An ill-formed serialized State is refused. The refusal is the
spec's decision D26, the form of the serialized State is log entry 9. -/
def Obligations.RestoreOfSerializeIsIdentity : Prop :=
  (∀ s u : State, s.wf = true → hostAct (.restore s.serialize) u =
    .next { s with fault := u.fault, keys := u.keys, draw := u.draw, cycleNo := u.cycleNo }) ∧
  (∀ (p : Snapshot) (u : State), p.wf = false → hostAct (.restore p) u = .refused .illFormedSnapshot ∧
    afterHost u (.restore p) = u)

/-- R138: a cycle uses the key snapshot that the host passes and the byte that is drawn: `SKP` and `SKNP` skip by that
snapshot and `RND` masks that byte. The inputs are the spec's decisions D21 and D24; where they stand is log entry 3. -/
def Obligations.CycleUsesHostInputs : Prop :=
  ∀ (s : State) (keys : Keys) (draw : Byte) (x : RegIdx) (op : Word), s.fault = none → fetchAt s.mem s.pc.toNat = some op →
    (∀ h : (s.v x).toNat < 16, decode op = .instr (.skp x) → ∃ t, hostAct (.cycle keys draw) s = .next t ∧
      t.pc = s.pc + (if keys[(s.v x).toNat] = true then 4 else 2)) ∧
    (∀ h : (s.v x).toNat < 16, decode op = .instr (.sknp x) → ∃ t, hostAct (.cycle keys draw) s = .next t ∧
      t.pc = s.pc + (if keys[(s.v x).toNat] = true then 2 else 4)) ∧
    (∀ kk, decode op = .instr (.rnd x kk) → ∃ t, hostAct (.cycle keys draw) s = .next t ∧ t.v x = draw &&& kk)
end

