-- ==== Sys2Proof/Laws/State.lean ====
section
/-! SUPPORT. One lemma per field of `State` per named update, so that no later proof unfolds a record update. -/

namespace Sys2Proof.Machine

variable (s : State)

/-! ## `setV` -/

@[simp] theorem State.setV_mem (x : RegIdx) (b : Byte) : (s.setV x b).mem = s.mem := rfl
@[simp] theorem State.setV_regs (x : RegIdx) (b : Byte) : (s.setV x b).regs = s.regs.set x b := rfl
@[simp] theorem State.setV_i (x : RegIdx) (b : Byte) : (s.setV x b).i = s.i := rfl
@[simp] theorem State.setV_pc (x : RegIdx) (b : Byte) : (s.setV x b).pc = s.pc := rfl
@[simp] theorem State.setV_stack (x : RegIdx) (b : Byte) : (s.setV x b).stack = s.stack := rfl
@[simp] theorem State.setV_display (x : RegIdx) (b : Byte) : (s.setV x b).display = s.display := rfl
@[simp] theorem State.setV_dt (x : RegIdx) (b : Byte) : (s.setV x b).dt = s.dt := rfl
@[simp] theorem State.setV_st (x : RegIdx) (b : Byte) : (s.setV x b).st = s.st := rfl
@[simp] theorem State.setV_fault (x : RegIdx) (b : Byte) : (s.setV x b).fault = s.fault := rfl
@[simp] theorem State.setV_keys (x : RegIdx) (b : Byte) : (s.setV x b).keys = s.keys := rfl
@[simp] theorem State.setV_draw (x : RegIdx) (b : Byte) : (s.setV x b).draw = s.draw := rfl
@[simp] theorem State.setV_cycleNo (x : RegIdx) (b : Byte) : (s.setV x b).cycleNo = s.cycleNo := rfl

/-! ## `setFlag` -/

@[simp] theorem State.setFlag_mem (b : Byte) : (s.setFlag b).mem = s.mem := rfl
@[simp] theorem State.setFlag_regs (b : Byte) : (s.setFlag b).regs = s.regs.set regF b := rfl
@[simp] theorem State.setFlag_i (b : Byte) : (s.setFlag b).i = s.i := rfl
@[simp] theorem State.setFlag_pc (b : Byte) : (s.setFlag b).pc = s.pc := rfl
@[simp] theorem State.setFlag_stack (b : Byte) : (s.setFlag b).stack = s.stack := rfl
@[simp] theorem State.setFlag_display (b : Byte) : (s.setFlag b).display = s.display := rfl
@[simp] theorem State.setFlag_dt (b : Byte) : (s.setFlag b).dt = s.dt := rfl
@[simp] theorem State.setFlag_st (b : Byte) : (s.setFlag b).st = s.st := rfl
@[simp] theorem State.setFlag_fault (b : Byte) : (s.setFlag b).fault = s.fault := rfl
@[simp] theorem State.setFlag_keys (b : Byte) : (s.setFlag b).keys = s.keys := rfl
@[simp] theorem State.setFlag_draw (b : Byte) : (s.setFlag b).draw = s.draw := rfl
@[simp] theorem State.setFlag_cycleNo (b : Byte) : (s.setFlag b).cycleNo = s.cycleNo := rfl

/-! ## `setVFlag` -/

@[simp] theorem State.setVFlag_mem (x : RegIdx) (b f : Byte) : (s.setVFlag x b f).mem = s.mem := rfl
@[simp] theorem State.setVFlag_regs (x : RegIdx) (b f : Byte) : (s.setVFlag x b f).regs = (s.regs.set x b).set regF f := rfl
@[simp] theorem State.setVFlag_i (x : RegIdx) (b f : Byte) : (s.setVFlag x b f).i = s.i := rfl
@[simp] theorem State.setVFlag_pc (x : RegIdx) (b f : Byte) : (s.setVFlag x b f).pc = s.pc := rfl
@[simp] theorem State.setVFlag_stack (x : RegIdx) (b f : Byte) : (s.setVFlag x b f).stack = s.stack := rfl
@[simp] theorem State.setVFlag_display (x : RegIdx) (b f : Byte) : (s.setVFlag x b f).display = s.display := rfl
@[simp] theorem State.setVFlag_dt (x : RegIdx) (b f : Byte) : (s.setVFlag x b f).dt = s.dt := rfl
@[simp] theorem State.setVFlag_st (x : RegIdx) (b f : Byte) : (s.setVFlag x b f).st = s.st := rfl
@[simp] theorem State.setVFlag_fault (x : RegIdx) (b f : Byte) : (s.setVFlag x b f).fault = s.fault := rfl
@[simp] theorem State.setVFlag_keys (x : RegIdx) (b f : Byte) : (s.setVFlag x b f).keys = s.keys := rfl
@[simp] theorem State.setVFlag_draw (x : RegIdx) (b f : Byte) : (s.setVFlag x b f).draw = s.draw := rfl
@[simp] theorem State.setVFlag_cycleNo (x : RegIdx) (b f : Byte) : (s.setVFlag x b f).cycleNo = s.cycleNo := rfl

/-! ## `loadRegs` -/

@[simp] theorem State.loadRegs_mem (bs : List Byte) : (s.loadRegs bs).mem = s.mem := rfl
@[simp] theorem State.loadRegs_i (bs : List Byte) : (s.loadRegs bs).i = s.i := rfl
@[simp] theorem State.loadRegs_pc (bs : List Byte) : (s.loadRegs bs).pc = s.pc := rfl
@[simp] theorem State.loadRegs_stack (bs : List Byte) : (s.loadRegs bs).stack = s.stack := rfl
@[simp] theorem State.loadRegs_display (bs : List Byte) : (s.loadRegs bs).display = s.display := rfl
@[simp] theorem State.loadRegs_dt (bs : List Byte) : (s.loadRegs bs).dt = s.dt := rfl
@[simp] theorem State.loadRegs_st (bs : List Byte) : (s.loadRegs bs).st = s.st := rfl
@[simp] theorem State.loadRegs_fault (bs : List Byte) : (s.loadRegs bs).fault = s.fault := rfl
@[simp] theorem State.loadRegs_keys (bs : List Byte) : (s.loadRegs bs).keys = s.keys := rfl
@[simp] theorem State.loadRegs_draw (bs : List Byte) : (s.loadRegs bs).draw = s.draw := rfl
@[simp] theorem State.loadRegs_cycleNo (bs : List Byte) : (s.loadRegs bs).cycleNo = s.cycleNo := rfl

/-! ## `advance` -/

@[simp] theorem State.advance_mem : (s.advance).mem = s.mem := rfl
@[simp] theorem State.advance_regs : (s.advance).regs = s.regs := rfl
@[simp] theorem State.advance_i : (s.advance).i = s.i := rfl
@[simp] theorem State.advance_pc : (s.advance).pc = s.pc + 2 := rfl
@[simp] theorem State.advance_stack : (s.advance).stack = s.stack := rfl
@[simp] theorem State.advance_display : (s.advance).display = s.display := rfl
@[simp] theorem State.advance_dt : (s.advance).dt = s.dt := rfl
@[simp] theorem State.advance_st : (s.advance).st = s.st := rfl
@[simp] theorem State.advance_fault : (s.advance).fault = s.fault := rfl
@[simp] theorem State.advance_keys : (s.advance).keys = s.keys := rfl
@[simp] theorem State.advance_draw : (s.advance).draw = s.draw := rfl
@[simp] theorem State.advance_cycleNo : (s.advance).cycleNo = s.cycleNo := rfl

/-! ## `skipIf` -/

@[simp] theorem State.skipIf_mem (c : Bool) : (s.skipIf c).mem = s.mem := rfl
@[simp] theorem State.skipIf_regs (c : Bool) : (s.skipIf c).regs = s.regs := rfl
@[simp] theorem State.skipIf_i (c : Bool) : (s.skipIf c).i = s.i := rfl
@[simp] theorem State.skipIf_pc (c : Bool) : (s.skipIf c).pc = s.pc + (if c then 4 else 2) := rfl
@[simp] theorem State.skipIf_stack (c : Bool) : (s.skipIf c).stack = s.stack := rfl
@[simp] theorem State.skipIf_display (c : Bool) : (s.skipIf c).display = s.display := rfl
@[simp] theorem State.skipIf_dt (c : Bool) : (s.skipIf c).dt = s.dt := rfl
@[simp] theorem State.skipIf_st (c : Bool) : (s.skipIf c).st = s.st := rfl
@[simp] theorem State.skipIf_fault (c : Bool) : (s.skipIf c).fault = s.fault := rfl
@[simp] theorem State.skipIf_keys (c : Bool) : (s.skipIf c).keys = s.keys := rfl
@[simp] theorem State.skipIf_draw (c : Bool) : (s.skipIf c).draw = s.draw := rfl
@[simp] theorem State.skipIf_cycleNo (c : Bool) : (s.skipIf c).cycleNo = s.cycleNo := rfl

/-! ## `push` -/

@[simp] theorem State.push_mem (w : Word) : (s.push w).mem = s.mem := rfl
@[simp] theorem State.push_regs (w : Word) : (s.push w).regs = s.regs := rfl
@[simp] theorem State.push_i (w : Word) : (s.push w).i = s.i := rfl
@[simp] theorem State.push_pc (w : Word) : (s.push w).pc = s.pc := rfl
@[simp] theorem State.push_stack (w : Word) : (s.push w).stack = s.stack ++ [w] := rfl
@[simp] theorem State.push_display (w : Word) : (s.push w).display = s.display := rfl
@[simp] theorem State.push_dt (w : Word) : (s.push w).dt = s.dt := rfl
@[simp] theorem State.push_st (w : Word) : (s.push w).st = s.st := rfl
@[simp] theorem State.push_fault (w : Word) : (s.push w).fault = s.fault := rfl
@[simp] theorem State.push_keys (w : Word) : (s.push w).keys = s.keys := rfl
@[simp] theorem State.push_draw (w : Word) : (s.push w).draw = s.draw := rfl
@[simp] theorem State.push_cycleNo (w : Word) : (s.push w).cycleNo = s.cycleNo := rfl

/-! ## `freshInputs` -/

@[simp] theorem State.freshInputs_mem : (s.freshInputs).mem = s.mem := rfl
@[simp] theorem State.freshInputs_regs : (s.freshInputs).regs = s.regs := rfl
@[simp] theorem State.freshInputs_i : (s.freshInputs).i = s.i := rfl
@[simp] theorem State.freshInputs_pc : (s.freshInputs).pc = s.pc := rfl
@[simp] theorem State.freshInputs_stack : (s.freshInputs).stack = s.stack := rfl
@[simp] theorem State.freshInputs_display : (s.freshInputs).display = s.display := rfl
@[simp] theorem State.freshInputs_dt : (s.freshInputs).dt = s.dt := rfl
@[simp] theorem State.freshInputs_st : (s.freshInputs).st = s.st := rfl
@[simp] theorem State.freshInputs_fault : (s.freshInputs).fault = s.fault := rfl
@[simp] theorem State.freshInputs_keys : (s.freshInputs).keys = Config.freeKeys (s.cycleNo + 1) := rfl
@[simp] theorem State.freshInputs_draw : (s.freshInputs).draw = Config.freeDraw (s.cycleNo + 1) := rfl
@[simp] theorem State.freshInputs_cycleNo : (s.freshInputs).cycleNo = s.cycleNo + 1 := rfl

/-! ## `tick` -/

@[simp] theorem State.tick_mem : (s.tick).mem = s.mem := rfl
@[simp] theorem State.tick_regs : (s.tick).regs = s.regs := rfl
@[simp] theorem State.tick_i : (s.tick).i = s.i := rfl
@[simp] theorem State.tick_pc : (s.tick).pc = s.pc := rfl
@[simp] theorem State.tick_stack : (s.tick).stack = s.stack := rfl
@[simp] theorem State.tick_display : (s.tick).display = s.display := rfl
@[simp] theorem State.tick_dt : (s.tick).dt = if s.dt = 0 then 0 else s.dt - 1 := rfl
@[simp] theorem State.tick_st : (s.tick).st = if s.st = 0 then 0 else s.st - 1 := rfl
@[simp] theorem State.tick_fault : (s.tick).fault = s.fault := rfl
@[simp] theorem State.tick_keys : (s.tick).keys = s.keys := rfl
@[simp] theorem State.tick_draw : (s.tick).draw = s.draw := rfl
@[simp] theorem State.tick_cycleNo : (s.tick).cycleNo = s.cycleNo := rfl

/-! ## `loadCharset` -/

@[simp] theorem State.loadCharset_mem (font : Config.Font) : (s.loadCharset font).mem = s.mem.putAll 0 font.toList := rfl
@[simp] theorem State.loadCharset_regs (font : Config.Font) : (s.loadCharset font).regs = s.regs := rfl
@[simp] theorem State.loadCharset_i (font : Config.Font) : (s.loadCharset font).i = s.i := rfl
@[simp] theorem State.loadCharset_pc (font : Config.Font) : (s.loadCharset font).pc = s.pc := rfl
@[simp] theorem State.loadCharset_stack (font : Config.Font) : (s.loadCharset font).stack = s.stack := rfl
@[simp] theorem State.loadCharset_display (font : Config.Font) : (s.loadCharset font).display = s.display := rfl
@[simp] theorem State.loadCharset_dt (font : Config.Font) : (s.loadCharset font).dt = s.dt := rfl
@[simp] theorem State.loadCharset_st (font : Config.Font) : (s.loadCharset font).st = s.st := rfl
@[simp] theorem State.loadCharset_fault (font : Config.Font) : (s.loadCharset font).fault = s.fault := rfl
@[simp] theorem State.loadCharset_keys (font : Config.Font) : (s.loadCharset font).keys = s.keys := rfl
@[simp] theorem State.loadCharset_draw (font : Config.Font) : (s.loadCharset font).draw = s.draw := rfl
@[simp] theorem State.loadCharset_cycleNo (font : Config.Font) : (s.loadCharset font).cycleNo = s.cycleNo := rfl

/-! ## `loadRom` -/

@[simp] theorem State.loadRom_mem (bytes : List Byte) : (s.loadRom bytes).mem = s.mem.putAll Config.romBase bytes := rfl
@[simp] theorem State.loadRom_regs (bytes : List Byte) : (s.loadRom bytes).regs = s.regs := rfl
@[simp] theorem State.loadRom_i (bytes : List Byte) : (s.loadRom bytes).i = s.i := rfl
@[simp] theorem State.loadRom_pc (bytes : List Byte) : (s.loadRom bytes).pc = s.pc := rfl
@[simp] theorem State.loadRom_stack (bytes : List Byte) : (s.loadRom bytes).stack = s.stack := rfl
@[simp] theorem State.loadRom_display (bytes : List Byte) : (s.loadRom bytes).display = s.display := rfl
@[simp] theorem State.loadRom_dt (bytes : List Byte) : (s.loadRom bytes).dt = s.dt := rfl
@[simp] theorem State.loadRom_st (bytes : List Byte) : (s.loadRom bytes).st = s.st := rfl
@[simp] theorem State.loadRom_fault (bytes : List Byte) : (s.loadRom bytes).fault = s.fault := rfl
@[simp] theorem State.loadRom_keys (bytes : List Byte) : (s.loadRom bytes).keys = s.keys := rfl
@[simp] theorem State.loadRom_draw (bytes : List Byte) : (s.loadRom bytes).draw = s.draw := rfl
@[simp] theorem State.loadRom_cycleNo (bytes : List Byte) : (s.loadRom bytes).cycleNo = s.cycleNo := rfl

/-! ## `restore` -/

@[simp] theorem State.restore_fault (p : Snapshot) : (s.restore p).fault = s.fault := rfl
@[simp] theorem State.restore_keys (p : Snapshot) : (s.restore p).keys = s.keys := rfl
@[simp] theorem State.restore_draw (p : Snapshot) : (s.restore p).draw = s.draw := rfl
@[simp] theorem State.restore_cycleNo (p : Snapshot) : (s.restore p).cycleNo = s.cycleNo := rfl

end Sys2Proof.Machine
end

