-- ==== Sys2Proof/Laws/Memory.lean ====
section
/-! SUPPORT. The laws of memory: read after write, the canonical form, and what each block access can answer. -/

namespace Sys2Proof.Machine

/-! ## Read after write (R53) -/

@[simp] theorem Memory.byteAt_nil (k : Nat) : Memory.byteAt [] k = 0 := rfl

theorem Memory.byteAt_cons (a : Nat) (b : Byte) (m : Memory) (k : Nat) :
    Memory.byteAt ((a, b) :: m) k = if a = k then b else Memory.byteAt m k := rfl

/-- Below the addresses a canonical memory lists, every byte is unlisted. -/
theorem Memory.byteAt_of_lt {m : Memory} {lo k : Nat} (h : m.wfFrom lo = true) (hk : k < lo) : m.byteAt k = 0 := by
  induction m generalizing lo with
  | nil => rfl
  | cons c m ih =>
    obtain ⟨a, b⟩ := c
    simp only [Memory.wfFrom, Bool.and_eq_true, decide_eq_true_eq] at h
    rw [Memory.byteAt_cons, if_neg (by omega), ih h.2 (by omega)]

/-- A canonical memory stays canonical from any lower bound. -/
theorem Memory.wfFrom_mono {m : Memory} {lo lo' : Nat} (h : m.wfFrom lo = true) (hle : lo' ≤ lo) : m.wfFrom lo' = true := by
  cases m with
  | nil => rfl
  | cons c m =>
    obtain ⟨a, b⟩ := c
    simp only [Memory.wfFrom, Bool.and_eq_true, decide_eq_true_eq] at h ⊢
    exact ⟨⟨⟨by omega, h.1.1.2⟩, h.1.2⟩, h.2⟩

/-- A write changes the byte written and no other (R51). It needs the rising order that the canonical form gives. -/
theorem Memory.byteAt_put_from {m : Memory} {lo k : Nat} (v : Byte) (h : m.wfFrom lo = true) (j : Nat) :
    (m.put k v).byteAt j = if j = k then v else m.byteAt j := by
  induction m generalizing lo with
  | nil =>
    unfold Memory.put
    split
    · next hv => simp [hv, Memory.unlisted]
    · simp only [Memory.byteAt_cons, Memory.byteAt_nil, eq_comm]
  | cons c m ih =>
    obtain ⟨a, b⟩ := c
    simp only [Memory.wfFrom, Bool.and_eq_true, decide_eq_true_eq] at h
    have hlow : ∀ i, i ≤ a → Memory.byteAt m i = Memory.unlisted := fun i hi => Memory.byteAt_of_lt h.2 (by omega)
    rw [Memory.put]
    rcases lt_trichotomy k a with hk | hk | hk
    · rw [if_pos hk]
      by_cases hv : v = Memory.unlisted
      · rw [if_pos hv]
        by_cases hj : j = k
        · rw [if_pos hj, Memory.byteAt_cons, if_neg (by omega), hlow _ (by omega), hv]
        · rw [if_neg hj]
      · rw [if_neg hv, Memory.byteAt_cons]
        simp only [eq_comm]
    · subst hk
      rw [if_neg (lt_irrefl _), if_pos rfl]
      by_cases hv : v = Memory.unlisted
      · rw [if_pos hv]
        by_cases hj : j = k
        · rw [if_pos hj, hlow _ (by omega), hv]
        · rw [if_neg hj, Memory.byteAt_cons, if_neg (Ne.symm hj)]
      · rw [if_neg hv, Memory.byteAt_cons, Memory.byteAt_cons]
        by_cases hj : j = k
        · rw [if_pos hj.symm, if_pos hj]
        · rw [if_neg (Ne.symm hj), if_neg (Ne.symm hj), if_neg hj]
    · rw [if_neg (by omega), if_neg (by omega), Memory.byteAt_cons, ih h.2, Memory.byteAt_cons]
      by_cases hj : a = j
      · rw [if_pos hj, if_pos hj, if_neg (by omega)]
      · rw [if_neg hj, if_neg hj]

theorem Memory.byteAt_put {m : Memory} (h : m.wf = true) (k : Nat) (v : Byte) (j : Nat) :
    (m.put k v).byteAt j = if j = k then v else m.byteAt j := Memory.byteAt_put_from v h j

/-! ## The canonical form (R36) -/

/-- A write inside memory keeps the canonical form, from any bound at or below the address written. -/
theorem Memory.put_wfFrom {m : Memory} {lo k : Nat} (v : Byte) (h : m.wfFrom lo = true) (hlo : lo ≤ k)
    (hk : k < Config.memSize) : (m.put k v).wfFrom lo = true := by
  induction m generalizing lo with
  | nil =>
    unfold Memory.put
    split
    · rfl
    · next hv => simp [Memory.wfFrom, hlo, hk, hv]
  | cons c m ih =>
    obtain ⟨a, b⟩ := c
    have hall := h
    simp only [Memory.wfFrom, Bool.and_eq_true, decide_eq_true_eq] at h
    obtain ⟨⟨⟨h1, h2⟩, h3⟩, h4⟩ := h
    unfold Memory.put
    split_ifs with c1 c2 c3 c4
    · exact hall
    · simp only [Memory.wfFrom, Bool.and_eq_true, decide_eq_true_eq]
      exact ⟨⟨⟨hlo, hk⟩, c2⟩, ⟨⟨by omega, h2⟩, h3⟩, h4⟩
    · exact Memory.wfFrom_mono h4 (by omega)
    · simp only [Memory.wfFrom, Bool.and_eq_true, decide_eq_true_eq]
      exact ⟨⟨⟨hlo, hk⟩, c4⟩, c3 ▸ h4⟩
    · simp only [Memory.wfFrom, Bool.and_eq_true, decide_eq_true_eq]
      exact ⟨⟨⟨h1, h2⟩, h3⟩, ih h4 (by omega)⟩

theorem Memory.put_wf {m : Memory} {k : Nat} (v : Byte) (h : m.wf = true) (hk : k < Config.memSize) : (m.put k v).wf = true :=
  Memory.put_wfFrom v h (Nat.zero_le k) hk

theorem Memory.putAll_wf {m : Memory} {a : Nat} {bs : List Byte} (h : m.wf = true) (hfit : bs = [] ∨ a + bs.length ≤ Config.memSize) :
    (m.putAll a bs).wf = true := by
  induction bs generalizing m a with
  | nil => exact h
  | cons b bs ih =>
    have hl : a + (bs.length + 1) ≤ Config.memSize := by simpa using hfit
    exact ih (Memory.put_wf b h (by omega)) (Or.inr (by omega))

theorem Memory.byteAt_putAll {m : Memory} {a : Nat} {bs : List Byte} (h : m.wf = true)
    (hfit : bs = [] ∨ a + bs.length ≤ Config.memSize) (j : Nat) :
    (m.putAll a bs).byteAt j = if a ≤ j ∧ j < a + bs.length then bs.getD (j - a) 0 else m.byteAt j := by
  induction bs generalizing m a with
  | nil =>
    rw [if_neg (by simp)]
    rfl
  | cons b bs ih =>
    have hl : a + (bs.length + 1) ≤ Config.memSize := by simpa using hfit
    rw [Memory.putAll, ih (Memory.put_wf b h (by omega)) (Or.inr (by omega)), Memory.byteAt_put h, List.length_cons]
    by_cases h1 : j = a
    · subst h1
      rw [if_neg (by omega), if_pos rfl, if_pos (by omega), Nat.sub_self]
      rfl
    · by_cases h2 : a + 1 ≤ j ∧ j < a + 1 + bs.length
      · rw [if_pos h2, if_pos (by omega), show j - a = (j - (a + 1)) + 1 by omega, List.getD_cons_succ]
      · rw [if_neg h2, if_neg h1, if_neg (by omega)]

/-! ## What a block access can answer (R48, R49) -/

theorem memRead_of_lt {m : Memory} {a : Nat} (h : a < Config.memSize) : memRead m a = .ok (m.byteAt a) := if_pos h

theorem memRead_of_ge {m : Memory} {a : Nat} (h : Config.memSize ≤ a) : memRead m a = .error a := if_neg (by omega)

/-- A block inside memory is read byte by byte. -/
theorem readBlock_ok {m : Memory} {a n : Nat} (h : n = 0 ∨ a + n ≤ Config.memSize) :
    readBlock m a n = .ok ((List.range n).map fun k => m.byteAt (a + k)) := by
  induction n generalizing a with
  | zero => rfl
  | succ n ih =>
    have hl : a + (n + 1) ≤ Config.memSize := by simpa using h
    rw [readBlock, memRead_of_lt (by omega), ih (Or.inr (by omega)), List.range_succ_eq_map]
    simp [Function.comp_def, Nat.add_assoc, Nat.add_comm 1]

/-- A block that leaves memory answers its first address outside. -/
theorem readBlock_error {m : Memory} {a n : Nat} (hn : n ≠ 0) (h : Config.memSize < a + n) :
    readBlock m a n = .error (max a Config.memSize) := by
  induction n generalizing a with
  | zero => exact absurd rfl hn
  | succ n ih =>
    rw [readBlock]
    by_cases ha : a < Config.memSize
    · rw [memRead_of_lt ha, ih (by omega) (by omega), show max (a + 1) Config.memSize = max a Config.memSize by omega]
    · rw [memRead_of_ge (by omega), Nat.max_eq_left (by omega)]

theorem writeBlock_ok {m : Memory} {a : Nat} {bs : List Byte} (h : bs = [] ∨ a + bs.length ≤ Config.memSize) :
    writeBlock m a bs = .ok (m.putAll a bs) := by
  induction bs generalizing m a with
  | nil => rfl
  | cons b bs ih =>
    have hl : a + (bs.length + 1) ≤ Config.memSize := by simpa using h
    rw [writeBlock, memWrite, if_pos (by omega)]
    exact ih (Or.inr (by omega))

theorem writeBlock_error {m : Memory} {a : Nat} {bs : List Byte} (hn : bs ≠ []) (h : Config.memSize < a + bs.length) :
    writeBlock m a bs = .error (max a Config.memSize) := by
  induction bs generalizing m a with
  | nil => exact absurd rfl hn
  | cons b bs ih =>
    rw [List.length_cons] at h
    rw [writeBlock, memWrite]
    by_cases ha : a < Config.memSize
    · rw [if_pos ha]
      rw [show max a Config.memSize = max (a + 1) Config.memSize by omega]
      exact ih (by rintro rfl; simp at h; omega) (by omega)
    · rw [if_neg ha, Nat.max_eq_left (by omega)]

/-- The fetch answers a word exactly inside memory: `a ≤ 4094` (R47). -/
theorem fetchAt_of_le {m : Memory} {a : Nat} (h : a ≤ 4094) :
    fetchAt m a = some (wordOfBytes (m.byteAt a) (m.byteAt (a + 1))) :=
  if_pos (show a + 1 < 4096 by omega)

theorem fetchAt_of_gt {m : Memory} {a : Nat} (h : 4094 < a) : fetchAt m a = none :=
  if_neg (show ¬ a + 1 < 4096 by omega)

/-! ## Memory from a list of bytes (R139) -/

theorem Memory.ofBytes_wfFrom (a : Nat) (bs : List Byte) (h : a + bs.length ≤ Config.memSize) :
    (Memory.ofBytes a bs).wfFrom a = true := by
  induction bs generalizing a with
  | nil => rfl
  | cons b bs ih =>
    rw [List.length_cons] at h
    rw [Memory.ofBytes]
    split_ifs with hb
    · exact Memory.wfFrom_mono (ih (a + 1) (by omega)) (by omega)
    · simp only [Memory.wfFrom, Bool.and_eq_true, decide_eq_true_eq]
      exact ⟨⟨⟨le_refl a, by omega⟩, hb⟩, ih (a + 1) (by omega)⟩

theorem Memory.ofBytes_wf {bs : List Byte} (h : bs.length ≤ Config.memSize) : (Memory.ofBytes 0 bs).wf = true :=
  Memory.ofBytes_wfFrom 0 bs (by omega)

theorem Memory.byteAt_ofBytes (a : Nat) (bs : List Byte) (j : Nat) :
    (Memory.ofBytes a bs).byteAt j = if a ≤ j then bs.getD (j - a) 0 else 0 := by
  induction bs generalizing a with
  | nil => simp [Memory.ofBytes]
  | cons b bs ih =>
    rw [Memory.ofBytes]
    have tail : j ≠ a → (Memory.ofBytes (a + 1) bs).byteAt j = if a ≤ j then (b :: bs).getD (j - a) 0 else 0 := by
      intro hj
      rw [ih]
      by_cases h2 : a ≤ j
      · rw [if_pos (by omega), if_pos h2, show j - a = (j - (a + 1)) + 1 by omega, List.getD_cons_succ]
      · rw [if_neg (by omega), if_neg h2]
    by_cases hb : b = Memory.unlisted
    · rw [if_pos hb]
      by_cases hj : j = a
      · rw [ih, hj, if_neg (by omega), if_pos (le_refl a), Nat.sub_self, List.getD_cons_zero, hb]
        rfl
      · exact tail hj
    · rw [if_neg hb, Memory.byteAt_cons]
      by_cases hj : j = a
      · rw [hj, if_pos rfl, if_pos (le_refl a), Nat.sub_self, List.getD_cons_zero]
      · rw [if_neg (Ne.symm hj), tail hj]

end Sys2Proof.Machine
end

