-- ==== Sys2Proof/Laws/Machine.lean ====
section
/-! SUPPORT. The laws of the shared operations: registers and flags, taking a fault, the block accesses through `I`,
calls, and the inversion of one step. Each says once everything its operation can do. -/

namespace Sys2Proof.Machine

variable {s t : State}

/-! ## Registers and flags (R13, R16) -/

@[simp] theorem State.v_setV (s : State) (x y : RegIdx) (b : Byte) : (s.setV x b).v y = if y = x then b else s.v y := by
  simp only [State.v, State.setV, Fin.getElem_fin, Vector.getElem_set, Fin.ext_iff, eq_comm]

@[simp] theorem State.v_setFlag (s : State) (y : RegIdx) (f : Byte) : (s.setFlag f).v y = if y = regF then f else s.v y :=
  State.v_setV s regF y f

/-- The flag is written last: with `x = 0xF` the flag is what remains (R16). -/
@[simp] theorem State.v_setVFlag (s : State) (x y : RegIdx) (b f : Byte) :
    (s.setVFlag x b f).v y = if y = regF then f else if y = x then b else s.v y := by
  simp only [State.setVFlag, State.v_setFlag, State.v_setV]

theorem getElem_putRegs (regs : Vector Byte 16) (k : Nat) (bs : List Byte) (j : Nat) (hj : j < 16) :
    (putRegs regs k bs)[j] = if k ≤ j then bs.getD (j - k) regs[j] else regs[j] := by
  induction bs generalizing regs k with
  | nil => simp [putRegs]
  | cons b bs ih =>
    rw [putRegs, ih, Vector.getElem_setIfInBounds hj]
    rcases lt_trichotomy j k with h | h | h
    · rw [if_neg (by omega), if_neg (by omega), if_neg (by omega)]
    · rw [if_neg (by omega), if_pos h.symm, if_pos (by omega), show j - k = 0 by omega, List.getD_cons_zero]
    · rw [if_pos (by omega), if_neg (by omega), if_pos (by omega), show j - k = (j - (k + 1)) + 1 by omega,
        List.getD_cons_succ]

@[simp] theorem State.v_loadRegs (s : State) (bs : List Byte) (y : RegIdx) : (s.loadRegs bs).v y = bs.getD y.val (s.v y) := by
  simp only [State.v, State.loadRegs, Fin.getElem_fin, getElem_putRegs, Nat.zero_le, if_true, Nat.sub_zero]

@[simp] theorem State.v_advance (s : State) (y : RegIdx) : s.advance.v y = s.v y := rfl
@[simp] theorem State.v_skipIf (s : State) (c : Bool) (y : RegIdx) : (s.skipIf c).v y = s.v y := rfl
@[simp] theorem State.v_push (s : State) (w : Word) (y : RegIdx) : (s.push w).v y = s.v y := rfl
@[simp] theorem State.v_freshInputs (s : State) (y : RegIdx) : s.freshInputs.v y = s.v y := rfl

/-- The block that `Fx55` stores is `V0` to `Vx` (R112). -/
@[simp] theorem State.length_regBlock (s : State) (x : RegIdx) : (s.regBlock x).length = x.val + 1 := by
  have := x.isLt
  simp only [State.regBlock, List.length_take, Vector.length_toList]
  omega

theorem State.getElem_regBlock (s : State) (x k : RegIdx) (h : k.val < (s.regBlock x).length) :
    (s.regBlock x)[k.val] = s.v k := by
  simp [State.regBlock, State.v]

@[simp] theorem length_bcdDigits (v : Byte) : (bcdDigits v).length = 3 := rfl

theorem flagByte_eq_one (c : Bool) : flagByte c = 1 ↔ c = true := by cases c <;> decide

theorem flagByte_eq_zero (c : Bool) : flagByte c = 0 ↔ c = false := by cases c <;> decide

/-! ## The operands (R93, R110) -/

theorem State.keyPressed_of_lt (s : State) (k : Byte) (h : k.toNat < 16) : s.keyPressed k = some s.keys[k.toNat] := dif_pos h

theorem State.keyPressed_of_ge (s : State) (k : Byte) (h : 16 ≤ k.toNat) : s.keyPressed k = none := dif_neg (by omega)

theorem glyphAddr_of_lt (d : Byte) (h : d.toNat < 16) : glyphAddr d = some (BitVec.ofNat 16 (5 * d.toNat)) := if_pos h

theorem glyphAddr_of_ge (d : Byte) (h : 16 ≤ d.toNat) : glyphAddr d = none := if_neg (by omega)

/-! ## Taking a fault (R120) -/

theorem takeFault_next {c : FaultCause} (h : takeFault c s = .next t) : t = { s with fault := some ⟨c, s.pc⟩ } := by
  injection h with h
  exact h.symm

/-! ## Accesses through `I` (R49) -/

/-- A store through `I` either stores all its bytes or takes the fault of its first address outside memory. -/
theorem storeAtI_cases (bs : List Byte) (op : Word) (s : State) :
    ((bs = [] ∨ s.i.toNat + bs.length ≤ Config.memSize) ∧
      storeAtI bs op s = .next { s with mem := s.mem.putAll s.i.toNat bs }.advance) ∨
    (bs ≠ [] ∧ Config.memSize < s.i.toNat + bs.length ∧
      storeAtI bs op s = takeFault (.memOutOfRange (max s.i.toNat Config.memSize) op) s) := by
  by_cases h : bs = [] ∨ s.i.toNat + bs.length ≤ Config.memSize
  · exact .inl ⟨h, by simp only [storeAtI, State.dataAddr, Nat.add_zero, writeBlock_ok h]⟩
  · obtain ⟨h1, h2⟩ := not_or.mp h
    exact .inr ⟨h1, by omega, by
      simp only [storeAtI, State.dataAddr, Nat.add_zero, writeBlock_error h1 (not_le.mp h2)]⟩

/-- A load through `I` either loads all its registers or takes the fault of its first address outside memory. -/
theorem execLdLoad_cases (x : RegIdx) (s : State) :
    (s.i.toNat + (x.val + 1) ≤ Config.memSize ∧
      execLdLoad x s = .next (s.loadRegs ((List.range (x.val + 1)).map fun k => s.mem.byteAt (s.i.toNat + k))).advance) ∨
    (Config.memSize < s.i.toNat + (x.val + 1) ∧
      execLdLoad x s = takeFault (.memOutOfRange (max s.i.toNat Config.memSize) (encode (.ldLoad x))) s) := by
  by_cases h : s.i.toNat + (x.val + 1) ≤ Config.memSize
  · exact .inl ⟨h, by simp only [execLdLoad, State.dataAddr, Nat.add_zero, readBlock_ok (.inr h)]⟩
  · exact .inr ⟨by omega, by
      simp only [execLdLoad, State.dataAddr, Nat.add_zero, readBlock_error (Nat.succ_ne_zero _) (not_le.mp h)]⟩

/-- The canvas after `DRW` has drawn the `n` sprite bytes at `I` with its origin at `Vx`, `Vy` (R118). -/
def drwCanvas (s : State) (x y : RegIdx) (n : Fin 16) : Canvas :=
  (Canvas.mk s.display false).drawRows (s.v x).toNat (s.v y).toNat
    ((List.range n.val).map fun r => s.mem.byteAt (s.i.toNat + r))

/-- `DRW` either draws the whole sprite or takes the fault of its first address outside memory (R118). -/
theorem execDrw_cases (x y : RegIdx) (n : Fin 16) (s : State) :
    ((n.val = 0 ∨ s.i.toNat + n.val ≤ Config.memSize) ∧
      execDrw x y n s = .next ({ s with display := (drwCanvas s x y n).display }.setFlag
        (flagByte (drwCanvas s x y n).collision)).advance) ∨
    (n.val ≠ 0 ∧ Config.memSize < s.i.toNat + n.val ∧
      execDrw x y n s = takeFault (.memOutOfRange (max s.i.toNat Config.memSize) (encode (.drw x y n))) s) := by
  by_cases h : n.val = 0 ∨ s.i.toNat + n.val ≤ Config.memSize
  · exact .inl ⟨h, by simp only [execDrw, State.dataAddr, Nat.add_zero, readBlock_ok h, drwCanvas]⟩
  · obtain ⟨h1, h2⟩ := not_or.mp h
    exact .inr ⟨h1, by omega, by
      simp only [execDrw, State.dataAddr, Nat.add_zero, readBlock_error h1 (not_le.mp h2)]⟩

/-! ## Calls and returns (R84, R86) -/

theorem callWithDepth_cases (depth : Option Nat) (nnn : Addr12) (s : State) :
    (stackFull depth s.stack = false ∧
      callWithDepth depth nnn s = .next { s with stack := s.stack ++ [s.pc + 2], pc := zextAddr nnn }) ∨
    (stackFull depth s.stack = true ∧ callWithDepth depth nnn s = takeFault .stackOverflow s) := by
  cases h : stackFull depth s.stack
  · exact .inl ⟨rfl, by simp [callWithDepth, h, State.push]⟩
  · exact .inr ⟨rfl, by simp [callWithDepth, h]⟩

theorem execRet_cases (s : State) :
    (s.stack = [] ∧ execRet s = takeFault .stackUnderflow s) ∨
    (∃ st w, s.stack = st ++ [w] ∧ execRet s = .next { s with pc := w, stack := st }) := by
  rcases List.eq_nil_or_concat s.stack with h | ⟨st, w, h⟩
  · exact .inl ⟨h, by simp [execRet, h]⟩
  · refine .inr ⟨st, w, ?_, ?_⟩
    · simpa using h
    · simp [execRet, h]

/-! ## One step (R75) -/

theorem finishCycle_next {r : Result} (h : finishCycle r = .next t) : ∃ u, r = .next u ∧ t = u.freshInputs := by
  cases r with
  | next u => exact ⟨u, rfl, by injection h with h; exact h.symm⟩
  | fault r => exact nomatch h
  | refused r => exact nomatch h

/-- Everything a step can do when it answers a next state: a fetch outside memory, an illegal word, or an instruction. -/
theorem step_cases (h : step s = .next t) :
    s.fault = none ∧ ∃ u, t = u.freshInputs ∧
      ((4094 < s.pc.toNat ∧ u = { s with fault := some ⟨.fetchOutOfRange, s.pc⟩ }) ∨
       (∃ op, fetchAt s.mem s.pc.toNat = some op ∧ (∃ why, decode op = .reject why) ∧
          u = { s with fault := some ⟨.illegalOpcode op, s.pc⟩ }) ∨
       (∃ op i, fetchAt s.mem s.pc.toNat = some op ∧ decode op = .instr i ∧ exec i s = .next u)) := by
  unfold step at h
  cases hf : s.fault with
  | some r => rw [hf] at h; exact nomatch h
  | none =>
    rw [hf] at h
    refine ⟨rfl, ?_⟩
    cases ho : fetchAt s.mem s.pc.toNat with
    | none =>
      simp only [ho] at h
      obtain ⟨u, hu, rfl⟩ := finishCycle_next h
      refine ⟨u, rfl, .inl ⟨?_, takeFault_next hu⟩⟩
      by_contra hle
      rw [fetchAt_of_le (by omega)] at ho
      exact nomatch ho
    | some op =>
      simp only [ho] at h
      cases hd : decode op with
      | reject why =>
        simp only [hd] at h
        obtain ⟨u, hu, rfl⟩ := finishCycle_next h
        exact ⟨u, rfl, .inr (.inl ⟨op, rfl, ⟨why, hd⟩, takeFault_next hu⟩)⟩
      | instr i =>
        simp only [hd] at h
        obtain ⟨u, hu, rfl⟩ := finishCycle_next h
        exact ⟨u, rfl, .inr (.inr ⟨op, i, rfl, hd, hu⟩)⟩

end Sys2Proof.Machine
end

