-- ==== Sys2Proof/Laws/Display.lean ====
section
/-! SUPPORT. The laws of the display: flipping a cell, and plotting a pixel (R30, R118). -/

namespace Sys2Proof.Machine

@[simp] theorem Display.cell_clear (k : Fin 2048) : Display.clear.cell k = false := by
  simp [Display.cell, Display.clear]

/-- Flipping a cell changes that cell and no other. -/
theorem Display.cell_flip (d : Display) (j k : Fin 2048) : (d.flip j).cell k = (d.cell k ^^ decide (k = j)) := by
  have hj := j.isLt
  have hk := k.isLt
  simp only [Display.cell, Display.flip, Vector.getElem_set]
  by_cases h : j.val / 64 = k.val / 64
  · rw [if_pos h, BitVec.getLsbD_xor, BitVec.getLsbD_twoPow]
    simp only [h]
    congr 1
    have : (k = j) ↔ j.val % 64 = k.val % 64 := by rw [Fin.ext_iff]; omega
    simp only [this, show j.val % 64 < 64 by omega, decide_true, Bool.true_and]
  · rw [if_neg h]
    have : k ≠ j := by rintro rfl; exact h rfl
    simp [this]

/-- Two displays with equal cells are equal data. -/
theorem Display.ext_cell {d e : Display} (h : ∀ k, d.cell k = e.cell k) : d = e := by
  refine Vector.ext fun row hrow => BitVec.eq_of_getLsbD_eq fun col hcol => ?_
  have := h ⟨col + 64 * row, by omega⟩
  simpa only [Display.cell, show (col + 64 * row) / 64 = row by omega, show (col + 64 * row) % 64 = col by omega] using this

theorem Display.cell_ofCells (cells : List Nat) (k : Fin 2048) :
    (Display.ofCells cells).cell k = decide (cells.getD k.val 0 = 1) := by
  have hk := k.isLt
  simp only [Display.cell, Display.ofCells, Vector.getElem_ofFn, BitVec.getLsbD_eq_getElem (show k.val % 64 < 64 by omega),
    BitVec.getElem_ofFnLE, show k.val % 64 + 64 * (k.val / 64) = k.val by omega]

@[simp] theorem cellAt_val (px py : Nat) : (cellAt px py).val = px % 64 + (py % 32) * 64 := rfl

@[simp] theorem Canvas.plot_cell (c : Canvas) (j k : Fin 2048) :
    (c.plot j).display.cell k = (c.display.cell k ^^ decide (k = j)) := Display.cell_flip c.display j k

@[simp] theorem Canvas.plot_collision (c : Canvas) (j : Fin 2048) :
    (c.plot j).collision = (c.collision || c.display.cell j) := rfl

/-- The columns of a sprite row are distinct modulo 64, so no row overlaps itself (R119). -/
theorem cellAt_col_inj {px py c c' : Nat} (hc : c < 8) (hc' : c' < 8) (h : cellAt (px + c) py = cellAt (px + c') py) :
    c = c' := by
  have := congrArg Fin.val h
  simp only [cellAt_val] at this
  omega

/-! ## A sprite as the list of the cells it covers -/

/-- The cells that one sprite row flips, from the left. -/
def rowCells (px py : Nat) (row : Byte) : List (Fin 2048) :=
  ((List.range 8).filter fun col => spritePixel row col).map fun col => cellAt (px + col) py

/-- The cells that a sprite flips, top row first. -/
def spriteCells (px : Nat) : (py : Nat) → List Byte → List (Fin 2048)
  | _, [] => []
  | py, row :: rows => rowCells px py row ++ spriteCells px (py + 1) rows

/-- Drawing a row plots its cells one by one. -/
theorem Canvas.drawRow_eq_foldl (c : Canvas) (px py : Nat) (row : Byte) :
    c.drawRow px py row = (rowCells px py row).foldl Canvas.plot c := by
  rw [Canvas.drawRow, rowCells, List.foldl_map, List.foldl_filter]

/-- Drawing a sprite plots its cells one by one. -/
theorem Canvas.drawRows_eq_foldl (c : Canvas) (px py : Nat) (rows : List Byte) :
    c.drawRows px py rows = (spriteCells px py rows).foldl Canvas.plot c := by
  induction rows generalizing c py with
  | nil => rfl
  | cons row rows ih => rw [Canvas.drawRows, ih, Canvas.drawRow_eq_foldl, spriteCells, List.foldl_append]

/-- Plotting distinct cells flips exactly those cells. -/
theorem Canvas.foldl_plot_cell {ks : List (Fin 2048)} (hks : ks.Nodup) (c : Canvas) (k : Fin 2048) :
    (ks.foldl Canvas.plot c).display.cell k = (c.display.cell k ^^ decide (k ∈ ks)) := by
  induction ks generalizing c with
  | nil => simp
  | cons j ks ih =>
    obtain ⟨hj, hks⟩ := List.nodup_cons.mp hks
    rw [List.foldl_cons, ih hks, Canvas.plot_cell, Bool.xor_assoc]
    congr 1
    by_cases hkj : k = j
    · subst hkj
      simp [hj]
    · simp [hkj]

/-- Plotting distinct cells collides exactly when one of them was set. -/
theorem Canvas.foldl_plot_collision {ks : List (Fin 2048)} (hks : ks.Nodup) (c : Canvas) :
    (ks.foldl Canvas.plot c).collision = true ↔ c.collision = true ∨ ∃ k ∈ ks, c.display.cell k = true := by
  induction ks generalizing c with
  | nil => simp
  | cons j ks ih =>
    obtain ⟨hj, hks⟩ := List.nodup_cons.mp hks
    have hcell : ∀ k ∈ ks, (c.plot j).display.cell k = c.display.cell k := fun k hk => by
      have : k ≠ j := by
        rintro rfl
        exact hj hk
      simp [this]
    rw [List.foldl_cons, ih hks, Canvas.plot_collision, Bool.or_eq_true, or_assoc]
    refine or_congr Iff.rfl ⟨?_, ?_⟩
    · rintro (h | ⟨k, hk, h⟩)
      · exact ⟨j, List.mem_cons_self, h⟩
      · exact ⟨k, List.mem_cons_of_mem j hk, (hcell k hk).symm.trans h⟩
    · rintro ⟨k, hk, h⟩
      rcases List.mem_cons.mp hk with rfl | hk
      · exact .inl h
      · exact .inr ⟨k, hk, (hcell k hk).trans h⟩

theorem mem_rowCells (px py : Nat) (row : Byte) (k : Fin 2048) :
    k ∈ rowCells px py row ↔ ∃ col < 8, row.getLsbD (7 - col) = true ∧ k = cellAt (px + col) py := by
  simp only [rowCells, List.mem_map, List.mem_filter, List.mem_range, spritePixel, and_assoc, eq_comm]

theorem mem_spriteCells (px py : Nat) (rows : List Byte) (k : Fin 2048) :
    k ∈ spriteCells px py rows ↔ SpriteCovers rows px py k := by
  simp only [SpriteCovers]
  induction rows generalizing py with
  | nil => simp [spriteCells]
  | cons row rows ih =>
    rw [spriteCells, List.mem_append, mem_rowCells, ih]
    constructor
    · rintro (⟨c, hc, hb, rfl⟩ | ⟨r, hr, c, hc, hb, hk⟩)
      · exact ⟨0, by simp, c, hc, hb, rfl⟩
      · exact ⟨r + 1, by simpa using hr, c, hc, hb, by rw [hk]; congr 3; omega⟩
    · rintro ⟨r, hr, c, hc, hb, hk⟩
      cases r with
      | zero => exact .inl ⟨c, hc, hb, Fin.ext hk⟩
      | succ r => exact .inr ⟨r, by simpa using hr, c, hc, hb, by rw [hk]; congr 3; omega⟩

theorem rowCells_nodup (px py : Nat) (row : Byte) : (rowCells px py row).Nodup := by
  refine List.Nodup.map_on ?_ (List.nodup_range.filter _)
  intro c hc c' hc' h
  simp only [List.mem_filter, List.mem_range] at hc hc'
  exact cellAt_col_inj hc.1 hc'.1 h

/-- A sprite of at most 32 rows cannot overlap itself (R119). -/
theorem spriteCells_nodup (px py : Nat) (rows : List Byte) (h : rows.length ≤ 32) : (spriteCells px py rows).Nodup := by
  induction rows generalizing py with
  | nil => exact List.nodup_nil
  | cons row rows ih =>
    rw [List.length_cons] at h
    refine List.Nodup.append (rowCells_nodup px py row) (ih (py + 1) (by omega)) ?_
    intro k hk hk'
    obtain ⟨c, _, _, rfl⟩ := (mem_rowCells px py row k).mp hk
    obtain ⟨r, hr, c', _, _, h'⟩ := (mem_spriteCells px (py + 1) rows _).mp hk'
    rw [cellAt_val] at h'
    omega

end Sys2Proof.Machine
end

