-- ==== Sys2Proof/Laws/Encoding.lean ====
section
/-! SUPPORT. Words and fields as numbers: what each field reads, what each format builds, and that the two agree
(R41, R60, R61). -/

namespace Sys2Proof

/-! ## Fields as numbers (R61) -/

@[simp] theorem fieldA_toNat (op : Word) : (fieldA op).toNat = op.toNat / 4096 := by
  have := op.isLt
  simp only [fieldA, BitVec.extractLsb'_toNat, Nat.shiftRight_eq_div_pow]
  omega

@[simp] theorem fieldX_val (op : Word) : (fieldX op).val = op.toNat / 256 % 16 := by
  simp only [fieldX, BitVec.extractLsb'_toNat, Nat.shiftRight_eq_div_pow]

@[simp] theorem fieldY_val (op : Word) : (fieldY op).val = op.toNat / 16 % 16 := by
  simp only [fieldY, BitVec.extractLsb'_toNat, Nat.shiftRight_eq_div_pow]

@[simp] theorem fieldN_val (op : Word) : (fieldN op).val = op.toNat % 16 := by
  simp only [fieldN, BitVec.extractLsb'_toNat, Nat.shiftRight_zero]

@[simp] theorem fieldKK_toNat (op : Word) : (fieldKK op).toNat = op.toNat % 256 := by
  simp only [fieldKK, BitVec.extractLsb'_toNat, Nat.shiftRight_zero]

@[simp] theorem fieldNNN_toNat (op : Word) : (fieldNNN op).toNat = op.toNat % 4096 := by
  simp only [fieldNNN, BitVec.extractLsb'_toNat, Nat.shiftRight_zero]

/-! ## Formats as numbers (R60) -/

theorem toNat_append_eq {m n : Nat} (a : BitVec m) (b : BitVec n) : (a ++ b).toNat = a.toNat * 2 ^ n + b.toNat := by
  rw [BitVec.toNat_append, ← Nat.shiftLeft_add_eq_or_of_lt b.isLt, Nat.shiftLeft_eq]

@[simp] theorem nibbleOf_toNat (x : Fin 16) : (nibbleOf x).toNat = x.val := by
  have := x.isLt
  simp only [nibbleOf, BitVec.toNat_ofNat]
  omega

@[simp] theorem formatA_toNat (a : BitVec 4) (nnn : Addr12) : (formatA a nnn).toNat = a.toNat * 4096 + nnn.toNat :=
  toNat_append_eq a nnn

@[simp] theorem formatXK_toNat (a : BitVec 4) (x : RegIdx) (kk : Byte) :
    (formatXK a x kk).toNat = a.toNat * 4096 + x.val * 256 + kk.toNat := by
  have h : (formatXK a x kk).toNat = _ := toNat_append_eq (a ++ nibbleOf x) kk
  rw [h, toNat_append_eq, nibbleOf_toNat]
  omega

@[simp] theorem formatXYN_toNat (a : BitVec 4) (x y : RegIdx) (n : Fin 16) :
    (formatXYN a x y n).toNat = a.toNat * 4096 + x.val * 256 + y.val * 16 + n.val := by
  have h : (formatXYN a x y n).toNat = _ := toNat_append_eq (a ++ nibbleOf x) (nibbleOf y ++ nibbleOf n)
  rw [h, toNat_append_eq, toNat_append_eq, nibbleOf_toNat, nibbleOf_toNat, nibbleOf_toNat]
  omega

@[simp] theorem wordOfBytes_toNat (hi lo : Byte) : (wordOfBytes hi lo).toNat = hi.toNat * 256 + lo.toNat :=
  toNat_append_eq hi lo

/-! ## The fields of a format -/

section
variable (a : BitVec 4) (x y : RegIdx) (n : Fin 16) (kk : Byte) (nnn : Addr12)

@[simp] theorem fieldA_formatA : fieldA (formatA a nnn) = a := by
  have := nnn.isLt
  refine BitVec.eq_of_toNat_eq ?_
  rw [fieldA_toNat, formatA_toNat]
  omega

@[simp] theorem fieldNNN_formatA : fieldNNN (formatA a nnn) = nnn := by
  have := nnn.isLt
  refine BitVec.eq_of_toNat_eq ?_
  rw [fieldNNN_toNat, formatA_toNat]
  omega

@[simp] theorem fieldA_formatXK : fieldA (formatXK a x kk) = a := by
  have := x.isLt; have := kk.isLt
  refine BitVec.eq_of_toNat_eq ?_
  rw [fieldA_toNat, formatXK_toNat]
  omega

@[simp] theorem fieldX_formatXK : fieldX (formatXK a x kk) = x := by
  have := x.isLt; have := kk.isLt
  refine Fin.ext ?_
  rw [fieldX_val, formatXK_toNat]
  omega

@[simp] theorem fieldKK_formatXK : fieldKK (formatXK a x kk) = kk := by
  have := x.isLt; have := kk.isLt
  refine BitVec.eq_of_toNat_eq ?_
  rw [fieldKK_toNat, formatXK_toNat]
  omega

@[simp] theorem fieldA_formatXYN : fieldA (formatXYN a x y n) = a := by
  have := x.isLt; have := y.isLt; have := n.isLt
  refine BitVec.eq_of_toNat_eq ?_
  rw [fieldA_toNat, formatXYN_toNat]
  omega

@[simp] theorem fieldX_formatXYN : fieldX (formatXYN a x y n) = x := by
  have := x.isLt; have := y.isLt; have := n.isLt
  refine Fin.ext ?_
  rw [fieldX_val, formatXYN_toNat]
  omega

@[simp] theorem fieldY_formatXYN : fieldY (formatXYN a x y n) = y := by
  have := x.isLt; have := y.isLt; have := n.isLt
  refine Fin.ext ?_
  rw [fieldY_val, formatXYN_toNat]
  omega

@[simp] theorem fieldN_formatXYN : fieldN (formatXYN a x y n) = n := by
  have := x.isLt; have := y.isLt; have := n.isLt
  refine Fin.ext ?_
  rw [fieldN_val, formatXYN_toNat]
  omega

end

/-! ## A word is the format of its fields -/

theorem formatA_fields (op : Word) : formatA (fieldA op) (fieldNNN op) = op := by
  refine BitVec.eq_of_toNat_eq ?_
  rw [formatA_toNat, fieldA_toNat, fieldNNN_toNat]
  omega

theorem formatXK_fields (op : Word) : formatXK (fieldA op) (fieldX op) (fieldKK op) = op := by
  refine BitVec.eq_of_toNat_eq ?_
  rw [formatXK_toNat, fieldA_toNat, fieldX_val, fieldKK_toNat]
  omega

theorem formatXYN_fields (op : Word) : formatXYN (fieldA op) (fieldX op) (fieldY op) (fieldN op) = op := by
  refine BitVec.eq_of_toNat_eq ?_
  rw [formatXYN_toNat, fieldA_toNat, fieldX_val, fieldY_val, fieldN_val]
  omega

/-- Two bytes laid out big-endian are the word again (R41). -/
theorem wordOfBytes_bytesOfWord (op : Word) : wordOfBytes (op.extractLsb' 8 8) (op.extractLsb' 0 8) = op := by
  have := op.isLt
  refine BitVec.eq_of_toNat_eq ?_
  rw [wordOfBytes_toNat, BitVec.extractLsb'_toNat, BitVec.extractLsb'_toNat, Nat.shiftRight_eq_div_pow, Nat.shiftRight_zero]
  omega

/-! ## The masks of the opcode table -/

theorem and_maskA (op : Word) : op &&& 0xF000#16 = formatA (fieldA op) 0 := by
  show op &&& 0xF000#16 = ((op.extractLsb' 12 4 ++ 0#12 : BitVec (4 + 12)) : BitVec (4+12))
  refine BitVec.eq_of_getLsbD_eq fun i hi => ?_
  rw [BitVec.getLsbD_append]
  interval_cases i <;> simp

theorem and_maskXY (op : Word) : op &&& 0xF00F#16 = formatXYN (fieldA op) 0 0 (fieldN op) := by
  rw [formatXYN, nibbleOf]
  have h : nibbleOf (fieldN op) = op.extractLsb' 0 4 := BitVec.eq_of_toNat_eq (by simp)
  rw [h]
  show op &&& 0xF00F#16 = (((op.extractLsb' 12 4 ++ 0#4) ++ (0#4 ++ op.extractLsb' 0 4)) : BitVec ((4+4)+(4+4)))
  refine BitVec.eq_of_getLsbD_eq fun i hi => ?_
  rw [BitVec.getLsbD_append, BitVec.getLsbD_append, BitVec.getLsbD_append]
  interval_cases i <;> simp

theorem and_maskXS (op : Word) : op &&& 0xF0FF#16 = formatXK (fieldA op) 0 (fieldKK op) := by
  show op &&& 0xF0FF#16 = (((op.extractLsb' 12 4 ++ 0#4) ++ op.extractLsb' 0 8) : BitVec ((4+4)+8))
  refine BitVec.eq_of_getLsbD_eq fun i hi => ?_
  rw [BitVec.getLsbD_append, BitVec.getLsbD_append]
  interval_cases i <;> simp

/-- A word that decodes to no instruction is rejected as the illegal word it is. -/
theorem decode_reject {op : Word} {why : Reject} (h : decode op = .reject why) : why = .illegalWord op := by
  unfold decode decodeGroup8 decodeGroupE decodeGroupF at h
  (repeat' split at h) <;> first | (injection h with h; exact h.symm) | (exfalso; injection h)

end Sys2Proof
end

