-- ==== Sys2Proof/Laws/Exec.lean ====
section
/-! SUPPORT. What the execution of any instruction can do, said once: it takes the one fault that `faultOf` names, or it
completes and leaves the fault mark, the sound timer and the inputs of the cycle as they are (R120, R126). -/

namespace Sys2Proof.Machine

/-- The fault that an instruction's own rule raises in a state, if it raises one (R122). -/
def faultOf (i : Instr) (s : State) : Option FaultCause :=
  match i with
  | .ret => if s.stack = [] then some .stackUnderflow else none
  | .call _ => if stackFull Config.stackDepth s.stack then some .stackOverflow else none
  | .skp x => if 15 < (s.v x).toNat then some (.keyOutOfRange (s.v x) (encode (.skp x))) else none
  | .sknp x => if 15 < (s.v x).toNat then some (.keyOutOfRange (s.v x) (encode (.sknp x))) else none
  | .ldF x => if 15 < (s.v x).toNat then some (.fontIndexOutOfRange (s.v x) (encode (.ldF x))) else none
  | i =>
    if dataBytes i ≠ 0 ∧ Config.memSize < s.i.toNat + dataBytes i then
      some (.memOutOfRange (max s.i.toNat Config.memSize) (encode i))
    else none

/-- An instruction that `faultOf` names no fault for completes. -/
def Completes (s : State) (r : Result) : Prop :=
  ∃ t, r = .next t ∧ t.fault = s.fault ∧ t.st = s.st ∧ t.keys = s.keys ∧ t.draw = s.draw ∧ t.cycleNo = s.cycleNo

theorem exec_outcome (i : Instr) (s : State) :
    match faultOf i s with
    | none => Completes s (exec i s)
    | some c => exec i s = takeFault c s := by
  cases i with
  | ret =>
    rcases execRet_cases s with ⟨hs, h⟩ | ⟨st, w, hs, h⟩
    · simp only [faultOf, hs, if_true]
      exact h
    · simp only [faultOf, hs, List.append_eq_nil_iff, List.cons_ne_nil, and_false, if_false]
      exact ⟨_, h, rfl, rfl, rfl, rfl, rfl⟩
  | drw x y n =>
    rcases execDrw_cases x y n s with ⟨hf, h⟩ | ⟨hn, hm, h⟩
    · rw [faultOf, if_neg (by simp only [dataBytes]; omega)]
      · exact ⟨_, h, rfl, rfl, rfl, rfl, rfl⟩
      all_goals simp
    · rw [faultOf, if_pos ⟨hn, hm⟩]
      · exact h
      all_goals simp
  | skp x =>
    by_cases hk : (s.v x).toNat < 16
    · simp only [faultOf, show ¬ 15 < (s.v x).toNat by omega, if_false]
      exact ⟨s.skipIf s.keys[(s.v x).toNat], by simp only [exec, execSkp, State.keyPressed_of_lt s _ hk], rfl, rfl, rfl, rfl, rfl⟩
    · simp only [faultOf, show 15 < (s.v x).toNat by omega, if_true]
      simp only [exec, execSkp, State.keyPressed_of_ge s _ (show 16 ≤ (s.v x).toNat by omega)]
  | sknp x =>
    by_cases hk : (s.v x).toNat < 16
    · simp only [faultOf, show ¬ 15 < (s.v x).toNat by omega, if_false]
      exact ⟨s.skipIf (!s.keys[(s.v x).toNat]), by simp only [exec, execSknp, State.keyPressed_of_lt s _ hk], rfl, rfl, rfl, rfl, rfl⟩
    · simp only [faultOf, show 15 < (s.v x).toNat by omega, if_true]
      simp only [exec, execSknp, State.keyPressed_of_ge s _ (show 16 ≤ (s.v x).toNat by omega)]
  | ldF x =>
    by_cases hk : (s.v x).toNat < 16
    · simp only [faultOf, show ¬ 15 < (s.v x).toNat by omega, if_false]
      exact ⟨{ s with i := BitVec.ofNat 16 (5 * (s.v x).toNat) }.advance,
        by simp only [exec, execLdF, glyphAddr_of_lt _ hk], rfl, rfl, rfl, rfl, rfl⟩
    · simp only [faultOf, show 15 < (s.v x).toNat by omega, if_true]
      simp only [exec, execLdF, glyphAddr_of_ge _ (show 16 ≤ (s.v x).toNat by omega)]
  | ldB x =>
    rcases storeAtI_cases (bcdDigits (s.v x)) (encode (.ldB x)) s with ⟨hf, h⟩ | ⟨_, hm, h⟩
    · rw [faultOf, if_neg]
      · exact ⟨_, h, rfl, rfl, rfl, rfl, rfl⟩
      · rcases hf with hf | hf
        · exact absurd hf (by simp [bcdDigits])
        · simp only [dataBytes, length_bcdDigits] at *
          omega
      all_goals simp
    · rw [faultOf, if_pos ⟨by simp [dataBytes], hm⟩]
      · exact h
      all_goals simp
  | ldStore x =>
    rcases storeAtI_cases (s.regBlock x) (encode (.ldStore x)) s with ⟨hf, h⟩ | ⟨_, hm, h⟩
    · rw [faultOf, if_neg]
      · exact ⟨_, h, rfl, rfl, rfl, rfl, rfl⟩
      · rcases hf with hf | hf
        · have := congrArg List.length hf
          simp at this
        · simp only [dataBytes, State.length_regBlock] at *
          omega
      all_goals simp
    · rw [faultOf, if_pos ⟨by simp [dataBytes], by simpa [dataBytes] using hm⟩]
      · exact h
      all_goals simp
  | ldLoad x =>
    rcases execLdLoad_cases x s with ⟨hf, h⟩ | ⟨hm, h⟩
    · rw [faultOf, if_neg (by simp only [dataBytes]; omega)]
      · exact ⟨_, h, rfl, rfl, rfl, rfl, rfl⟩
      all_goals simp
    · rw [faultOf, if_pos ⟨by simp [dataBytes], hm⟩]
      · exact h
      all_goals simp
  | _ => exact ⟨_, rfl, rfl, rfl, rfl, rfl, rfl⟩

end Sys2Proof.Machine
end

