-- ==== Sys2Proof/Laws/PerInstr.lean ====
section
/-! SUPPORT. One lemma per instruction: its operands fit their fields, and its word belongs to its own row of the opcode
table (R60 to R63, R72). -/

namespace Sys2Proof

/-- An instruction's row of spec/opcode_table.json. -/
def Instr.row : Instr → OpcodeRow
  | .cls => ⟨"CLS", 0x00E0, 0xFFFF⟩
  | .ret => ⟨"RET", 0x00EE, 0xFFFF⟩
  | .jp _ => ⟨"JP", 0x1000, 0xF000⟩
  | .call _ => ⟨"CALL", 0x2000, 0xF000⟩
  | .seImm _ _ => ⟨"SE_imm", 0x3000, 0xF000⟩
  | .sneImm _ _ => ⟨"SNE_imm", 0x4000, 0xF000⟩
  | .seReg _ _ => ⟨"SE_reg", 0x5000, 0xF00F⟩
  | .ldImm _ _ => ⟨"LD_imm", 0x6000, 0xF000⟩
  | .addImm _ _ => ⟨"ADD_imm", 0x7000, 0xF000⟩
  | .ldReg _ _ => ⟨"LD_reg", 0x8000, 0xF00F⟩
  | .orReg _ _ => ⟨"OR", 0x8001, 0xF00F⟩
  | .andReg _ _ => ⟨"AND", 0x8002, 0xF00F⟩
  | .xorReg _ _ => ⟨"XOR", 0x8003, 0xF00F⟩
  | .addReg _ _ => ⟨"ADD_reg", 0x8004, 0xF00F⟩
  | .sub _ _ => ⟨"SUB", 0x8005, 0xF00F⟩
  | .shr _ _ => ⟨"SHR", 0x8006, 0xF00F⟩
  | .subn _ _ => ⟨"SUBN", 0x8007, 0xF00F⟩
  | .shl _ _ => ⟨"SHL", 0x800E, 0xF00F⟩
  | .sneReg _ _ => ⟨"SNE_reg", 0x9000, 0xF00F⟩
  | .ldI _ => ⟨"LD_I", 0xA000, 0xF000⟩
  | .jpV0 _ => ⟨"JP_V0", 0xB000, 0xF000⟩
  | .rnd _ _ => ⟨"RND", 0xC000, 0xF000⟩
  | .drw _ _ _ => ⟨"DRW", 0xD000, 0xF000⟩
  | .skp _ => ⟨"SKP", 0xE09E, 0xF0FF⟩
  | .sknp _ => ⟨"SKNP", 0xE0A1, 0xF0FF⟩
  | .ldVxDt _ => ⟨"LD_Vx_DT", 0xF007, 0xF0FF⟩
  | .ldDtVx _ => ⟨"LD_DT_Vx", 0xF015, 0xF0FF⟩
  | .addI _ => ⟨"ADD_I", 0xF01E, 0xF0FF⟩
  | .ldF _ => ⟨"LD_F", 0xF029, 0xF0FF⟩
  | .ldB _ => ⟨"LD_B", 0xF033, 0xF0FF⟩
  | .ldStore _ => ⟨"LD_store", 0xF055, 0xF0FF⟩
  | .ldLoad _ => ⟨"LD_load", 0xF065, 0xF0FF⟩

namespace Laws.TableRow

/-- The instruction's operands fit their fields, its row stands in the table, and its word belongs to that row. -/
def Statement (i : Instr) : Prop :=
  i.wellFormed = true ∧ i.row ∈ opcodeTable ∧ i.row.holds (encode i) = true

@[simp] theorem fits_reg (number : Fin 16) : (Operand.reg number.val).fits = true := decide_eq_true number.isLt

@[simp] theorem fits_nibble (n : Fin 16) : (Operand.nibble n.val).fits = true := decide_eq_true n.isLt

@[simp] theorem fits_byte (kk : Byte) : (Operand.byte kk.toNat).fits = true := decide_eq_true kk.isLt

@[simp] theorem fits_addr (nnn : Addr12) : (Operand.addr nnn.toNat).fits = true := decide_eq_true nnn.isLt

@[simp] theorem fits_named (name : NamedOperand) : (Operand.named name).fits = true := rfl

/-- The rows of the table, as one list. -/
theorem mem_opcodeTable {r : OpcodeRow} : r ∈ opcodeTable ↔ (r ∈ opcodeRows0to7 ∨ r ∈ opcodeRows8) ∨ r ∈ opcodeRows9toF := by
  simp only [opcodeTable, List.mem_append]

theorem holds_A {r : OpcodeRow} {a : BitVec 4} (nnn : Addr12) (hm : r.mask = 0xF000) (hp : r.pattern = formatA a 0) :
    r.holds (formatA a nnn) = true := by
  simp [OpcodeRow.holds, hm, hp, and_maskA]

theorem holds_XK {r : OpcodeRow} {a : BitVec 4} (x : RegIdx) (kk : Byte) (hm : r.mask = 0xF000) (hp : r.pattern = formatA a 0) :
    r.holds (formatXK a x kk) = true := by
  simp [OpcodeRow.holds, hm, hp, and_maskA]

theorem holds_XYN {r : OpcodeRow} {a : BitVec 4} (x y : RegIdx) (n : Fin 16) (hm : r.mask = 0xF000) (hp : r.pattern = formatA a 0) :
    r.holds (formatXYN a x y n) = true := by
  simp [OpcodeRow.holds, hm, hp, and_maskA]

theorem holds_XY {r : OpcodeRow} {a : BitVec 4} {d : Fin 16} (x y : RegIdx) (hm : r.mask = 0xF00F)
    (hp : r.pattern = formatXYN a 0 0 d) : r.holds (formatXYN a x y d) = true := by
  simp [OpcodeRow.holds, hm, hp, and_maskXY]

theorem holds_XS {r : OpcodeRow} {a : BitVec 4} {d : Byte} (x : RegIdx) (hm : r.mask = 0xF0FF)
    (hp : r.pattern = formatXK a 0 d) : r.holds (formatXK a x d) = true := by
  simp [OpcodeRow.holds, hm, hp, and_maskXS]

theorem cls : Statement .cls :=
  ⟨by decide, by decide, by decide⟩

theorem ret : Statement .ret :=
  ⟨by decide, by decide, by decide⟩

theorem jp (nnn : Addr12) : Statement (.jp nnn) :=
  ⟨by simp [Instr.wellFormed, Instr.operands], mem_opcodeTable.2 (.inl (.inl (by simp [Instr.row, opcodeRows0to7]))), holds_A nnn rfl rfl⟩

theorem call (nnn : Addr12) : Statement (.call nnn) :=
  ⟨by simp [Instr.wellFormed, Instr.operands], mem_opcodeTable.2 (.inl (.inl (by simp [Instr.row, opcodeRows0to7]))), holds_A nnn rfl rfl⟩

theorem seImm (x : RegIdx) (kk : Byte) : Statement (.seImm x kk) :=
  ⟨by simp [Instr.wellFormed, Instr.operands], mem_opcodeTable.2 (.inl (.inl (by simp [Instr.row, opcodeRows0to7]))), holds_XK x kk rfl rfl⟩

theorem sneImm (x : RegIdx) (kk : Byte) : Statement (.sneImm x kk) :=
  ⟨by simp [Instr.wellFormed, Instr.operands], mem_opcodeTable.2 (.inl (.inl (by simp [Instr.row, opcodeRows0to7]))), holds_XK x kk rfl rfl⟩

theorem seReg (x : RegIdx) (y : RegIdx) : Statement (.seReg x y) :=
  ⟨by simp [Instr.wellFormed, Instr.operands], mem_opcodeTable.2 (.inl (.inl (by simp [Instr.row, opcodeRows0to7]))), holds_XY x y rfl rfl⟩

theorem ldImm (x : RegIdx) (kk : Byte) : Statement (.ldImm x kk) :=
  ⟨by simp [Instr.wellFormed, Instr.operands], mem_opcodeTable.2 (.inl (.inl (by simp [Instr.row, opcodeRows0to7]))), holds_XK x kk rfl rfl⟩

theorem addImm (x : RegIdx) (kk : Byte) : Statement (.addImm x kk) :=
  ⟨by simp [Instr.wellFormed, Instr.operands], mem_opcodeTable.2 (.inl (.inl (by simp [Instr.row, opcodeRows0to7]))), holds_XK x kk rfl rfl⟩

theorem ldReg (x : RegIdx) (y : RegIdx) : Statement (.ldReg x y) :=
  ⟨by simp [Instr.wellFormed, Instr.operands], mem_opcodeTable.2 (.inl (.inr (by simp [Instr.row, opcodeRows8]))), holds_XY x y rfl rfl⟩

theorem orReg (x : RegIdx) (y : RegIdx) : Statement (.orReg x y) :=
  ⟨by simp [Instr.wellFormed, Instr.operands], mem_opcodeTable.2 (.inl (.inr (by simp [Instr.row, opcodeRows8]))), holds_XY x y rfl rfl⟩

theorem andReg (x : RegIdx) (y : RegIdx) : Statement (.andReg x y) :=
  ⟨by simp [Instr.wellFormed, Instr.operands], mem_opcodeTable.2 (.inl (.inr (by simp [Instr.row, opcodeRows8]))), holds_XY x y rfl rfl⟩

theorem xorReg (x : RegIdx) (y : RegIdx) : Statement (.xorReg x y) :=
  ⟨by simp [Instr.wellFormed, Instr.operands], mem_opcodeTable.2 (.inl (.inr (by simp [Instr.row, opcodeRows8]))), holds_XY x y rfl rfl⟩

theorem addReg (x : RegIdx) (y : RegIdx) : Statement (.addReg x y) :=
  ⟨by simp [Instr.wellFormed, Instr.operands], mem_opcodeTable.2 (.inl (.inr (by simp [Instr.row, opcodeRows8]))), holds_XY x y rfl rfl⟩

theorem sub (x : RegIdx) (y : RegIdx) : Statement (.sub x y) :=
  ⟨by simp [Instr.wellFormed, Instr.operands], mem_opcodeTable.2 (.inl (.inr (by simp [Instr.row, opcodeRows8]))), holds_XY x y rfl rfl⟩

theorem shr (x : RegIdx) (y : RegIdx) : Statement (.shr x y) :=
  ⟨by simp [Instr.wellFormed, Instr.operands], mem_opcodeTable.2 (.inl (.inr (by simp [Instr.row, opcodeRows8]))), holds_XY x y rfl rfl⟩

theorem subn (x : RegIdx) (y : RegIdx) : Statement (.subn x y) :=
  ⟨by simp [Instr.wellFormed, Instr.operands], mem_opcodeTable.2 (.inl (.inr (by simp [Instr.row, opcodeRows8]))), holds_XY x y rfl rfl⟩

theorem shl (x : RegIdx) (y : RegIdx) : Statement (.shl x y) :=
  ⟨by simp [Instr.wellFormed, Instr.operands], mem_opcodeTable.2 (.inl (.inr (by simp [Instr.row, opcodeRows8]))), holds_XY x y rfl rfl⟩

theorem sneReg (x : RegIdx) (y : RegIdx) : Statement (.sneReg x y) :=
  ⟨by simp [Instr.wellFormed, Instr.operands], mem_opcodeTable.2 (.inr (by simp [Instr.row, opcodeRows9toF])), holds_XY x y rfl rfl⟩

theorem ldI (nnn : Addr12) : Statement (.ldI nnn) :=
  ⟨by simp [Instr.wellFormed, Instr.operands], mem_opcodeTable.2 (.inr (by simp [Instr.row, opcodeRows9toF])), holds_A nnn rfl rfl⟩

theorem jpV0 (nnn : Addr12) : Statement (.jpV0 nnn) :=
  ⟨by simp [Instr.wellFormed, Instr.operands], mem_opcodeTable.2 (.inr (by simp [Instr.row, opcodeRows9toF])), holds_A nnn rfl rfl⟩

theorem rnd (x : RegIdx) (kk : Byte) : Statement (.rnd x kk) :=
  ⟨by simp [Instr.wellFormed, Instr.operands], mem_opcodeTable.2 (.inr (by simp [Instr.row, opcodeRows9toF])), holds_XK x kk rfl rfl⟩

theorem drw (x : RegIdx) (y : RegIdx) (n : Fin 16) : Statement (.drw x y n) :=
  ⟨by simp [Instr.wellFormed, Instr.operands], mem_opcodeTable.2 (.inr (by simp [Instr.row, opcodeRows9toF])), holds_XYN x y n rfl rfl⟩

theorem skp (x : RegIdx) : Statement (.skp x) :=
  ⟨by simp [Instr.wellFormed, Instr.operands], mem_opcodeTable.2 (.inr (by simp [Instr.row, opcodeRows9toF])), holds_XS x rfl rfl⟩

theorem sknp (x : RegIdx) : Statement (.sknp x) :=
  ⟨by simp [Instr.wellFormed, Instr.operands], mem_opcodeTable.2 (.inr (by simp [Instr.row, opcodeRows9toF])), holds_XS x rfl rfl⟩

theorem ldVxDt (x : RegIdx) : Statement (.ldVxDt x) :=
  ⟨by simp [Instr.wellFormed, Instr.operands], mem_opcodeTable.2 (.inr (by simp [Instr.row, opcodeRows9toF])), holds_XS x rfl rfl⟩

theorem ldDtVx (x : RegIdx) : Statement (.ldDtVx x) :=
  ⟨by simp [Instr.wellFormed, Instr.operands], mem_opcodeTable.2 (.inr (by simp [Instr.row, opcodeRows9toF])), holds_XS x rfl rfl⟩

theorem addI (x : RegIdx) : Statement (.addI x) :=
  ⟨by simp [Instr.wellFormed, Instr.operands], mem_opcodeTable.2 (.inr (by simp [Instr.row, opcodeRows9toF])), holds_XS x rfl rfl⟩

theorem ldF (x : RegIdx) : Statement (.ldF x) :=
  ⟨by simp [Instr.wellFormed, Instr.operands], mem_opcodeTable.2 (.inr (by simp [Instr.row, opcodeRows9toF])), holds_XS x rfl rfl⟩

theorem ldB (x : RegIdx) : Statement (.ldB x) :=
  ⟨by simp [Instr.wellFormed, Instr.operands], mem_opcodeTable.2 (.inr (by simp [Instr.row, opcodeRows9toF])), holds_XS x rfl rfl⟩

theorem ldStore (x : RegIdx) : Statement (.ldStore x) :=
  ⟨by simp [Instr.wellFormed, Instr.operands], mem_opcodeTable.2 (.inr (by simp [Instr.row, opcodeRows9toF])), holds_XS x rfl rfl⟩

theorem ldLoad (x : RegIdx) : Statement (.ldLoad x) :=
  ⟨by simp [Instr.wellFormed, Instr.operands], mem_opcodeTable.2 (.inr (by simp [Instr.row, opcodeRows9toF])), holds_XS x rfl rfl⟩

end Laws.TableRow

end Sys2Proof
end

