-- ==== Sys2Proof/Laws/Run.lean ====
section
/-! SUPPORT. What the end of a run is: the first state of the run that is over (R137). -/

namespace Sys2Proof.Machine

@[simp] theorem hostRun_nil (s : State) : hostRun s [] = s := rfl

@[simp] theorem hostRun_cons (s : State) (a : HostAction) (actions : List HostAction) :
    hostRun s (a :: actions) = hostRun (afterHost s a) actions := rfl

/-- `endOfRun` answers the least number of actions after which the run is over. -/
theorem endOfRun_eq_some {halt : Word} {s : State} {actions : List HostAction} {k : Nat} :
    endOfRun halt s actions = some k ↔ k ≤ actions.length ∧ (hostRun s (actions.take k)).ended halt ∧
      ∀ j < k, ¬ (hostRun s (actions.take j)).ended halt := by
  induction actions generalizing s k with
  | nil =>
    rw [endOfRun]
    split_ifs with h
    · rw [Option.some_inj]
      refine ⟨?_, fun hk => (Nat.le_zero.mp hk.1).symm⟩
      rintro rfl
      exact ⟨le_rfl, h, fun _ hj => absurd hj (Nat.not_lt_zero _)⟩
    · refine ⟨fun h => (nomatch h), fun hk => absurd ?_ h⟩
      simpa using hk.2.1
  | cons a actions ih =>
    rw [endOfRun]
    split_ifs with h
    · rw [Option.some_inj]
      constructor
      · rintro rfl
        exact ⟨Nat.zero_le _, h, fun _ hj => absurd hj (Nat.not_lt_zero _)⟩
      · intro hk
        by_contra hne
        exact hk.2.2 0 (by omega) h
    · cases k with
      | zero =>
        refine ⟨fun hk => ?_, fun hk => absurd hk.2.1 h⟩
        simp at hk
      | succ k =>
        rw [Option.map_eq_some_iff]
        simp only [Nat.add_right_cancel_iff, exists_eq_right, ih, List.length_cons, List.take_succ_cons, hostRun_cons,
          Nat.add_le_add_iff_right]
        refine and_congr_right fun _ => and_congr_right fun _ => ⟨fun hj j hlt => ?_, fun hj j hlt => ?_⟩
        · cases j with
          | zero => exact h
          | succ j => exact hj j (by omega)
        · exact hj (j + 1) (by omega)

/-- `endOfRun` answers nothing exactly when the run is not over after any number of the actions. -/
theorem endOfRun_eq_none {halt : Word} {s : State} {actions : List HostAction} :
    endOfRun halt s actions = none ↔ ∀ j ≤ actions.length, ¬ (hostRun s (actions.take j)).ended halt := by
  induction actions generalizing s with
  | nil => simp [endOfRun]
  | cons a actions ih =>
    rw [endOfRun]
    split_ifs with h
    · exact ⟨fun h' => (nomatch h'), fun h' => absurd h (h' 0 (Nat.zero_le _))⟩
    · rw [Option.map_eq_none_iff, ih]
      refine ⟨fun hj j hle => ?_, fun hj j hle => hj (j + 1) (Nat.succ_le_succ hle)⟩
      cases j with
      | zero => exact h
      | succ j => exact hj j (Nat.le_of_succ_le_succ hle)

/-- `runToEnd` is the state that the run has when it is over, or the state after all the actions if it is not. -/
theorem runToEnd_eq (halt : Word) (s : State) (actions : List HostAction) :
    runToEnd halt s actions = hostRun s (actions.take ((endOfRun halt s actions).getD actions.length)) := by
  induction actions generalizing s with
  | nil => simp [runToEnd]
  | cons a actions ih =>
    rw [runToEnd, endOfRun]
    split_ifs with h
    · rfl
    · rw [ih]
      cases endOfRun halt (afterHost s a) actions <;> rfl

end Sys2Proof.Machine
end

