-- ==== Sys2Proof/Tests/Slice0.lean ====
section
/-! SUPPORT. The model's own tests. Every expected result is taken from spec/95_test_vectors.md (its vector's name stands
above the test), from a worked example of the rule cited, or worked out by hand from the rule cited. -/

namespace Sys2Proof.Tests

open Sys2Proof Sys2Proof.Machine

/-! ## WellFormed: an ill-formed term for each check -/

theorem test_operand_reg_16_refused : (Operand.reg 16).fits = false ∧ (Operand.reg 15).fits = true := by decide
theorem test_operand_byte_256_refused : (Operand.byte 256).fits = false ∧ (Operand.byte 255).fits = true := by decide
theorem test_operand_addr_4096_refused : (Operand.addr 4096).fits = false ∧ (Operand.addr 4095).fits = true := by decide
theorem test_operand_nibble_16_refused : (Operand.nibble 16).fits = false ∧ (Operand.nibble 15).fits = true := by decide
theorem test_instr_wellFormed : (Instr.drw 15 15 15).wellFormed = true := by decide
/-- R36: an entry of 0, an entry out of order, and an address outside memory are no canonical memory. -/
theorem test_memory_wf_refused : Memory.wf [(5, 0)] = false ∧ Memory.wf [(5, 1), (4, 1)] = false ∧
    Memory.wf [(4, 1), (4, 2)] = false ∧ Memory.wf [(4096, 1)] = false ∧ Memory.wf [(4, 1), (4095, 2)] = true := by decide

/-- A serialized State that is well formed (R36). -/
def blank : Snapshot where
  memory := List.replicate 4096 0
  v := List.replicate 16 0
  i := 0
  pc := 0x200
  stack := []
  display := List.replicate 2048 0
  delayTimer := 0
  soundTimer := 0

theorem test_snapshot_wf : blank.wf = true := by decide +kernel
theorem test_snapshot_memory_size_refused : { blank with memory := [0] }.wf = false := by decide +kernel
theorem test_snapshot_memory_byte_refused : { blank with memory := 256 :: List.replicate 4095 0 }.wf = false := by decide +kernel
theorem test_snapshot_v_size_refused : { blank with v := [0] }.wf = false := by decide +kernel
theorem test_snapshot_v_byte_refused : { blank with v := 256 :: List.replicate 15 0 }.wf = false := by decide +kernel
theorem test_snapshot_i_refused : { blank with i := 65536 }.wf = false := by decide +kernel
theorem test_snapshot_pc_refused : { blank with pc := 65536 }.wf = false := by decide +kernel
theorem test_snapshot_stack_refused : { blank with stack := [65536] }.wf = false := by decide +kernel
theorem test_snapshot_display_size_refused : { blank with display := [0] }.wf = false := by decide +kernel
theorem test_snapshot_display_cell_refused : { blank with display := 2 :: List.replicate 2047 0 }.wf = false := by decide +kernel
theorem test_snapshot_dt_refused : { blank with delayTimer := 256 }.wf = false := by decide +kernel
theorem test_snapshot_st_refused : { blank with soundTimer := 256 }.wf = false := by decide +kernel

/-! ## Decode: a word for every constructor, written from the formats of R60 and the patterns of R63 -/

theorem test_decode_z_and_a : decode 0x00E0 = .instr .cls ∧ decode 0x00EE = .instr .ret ∧ decode 0x1234 = .instr (.jp 0x234) ∧
    decode 0x2FED = .instr (.call 0xFED) ∧ decode 0xA2F0 = .instr (.ldI 0x2F0) ∧ decode 0xBC01 = .instr (.jpV0 0xC01) := by decide
theorem test_decode_xk : decode 0x3A5C = .instr (.seImm 0xA 0x5C) ∧ decode 0x4B6D = .instr (.sneImm 0xB 0x6D) ∧
    decode 0x6A3C = .instr (.ldImm 0xA 0x3C) ∧ decode 0x7C81 = .instr (.addImm 0xC 0x81) ∧
    decode 0xC30F = .instr (.rnd 3 0x0F) := by decide
theorem test_decode_xy : decode 0x5AB0 = .instr (.seReg 0xA 0xB) ∧ decode 0x9CD0 = .instr (.sneReg 0xC 0xD) ∧
    decode 0x8120 = .instr (.ldReg 1 2) ∧ decode 0x8341 = .instr (.orReg 3 4) ∧ decode 0x8562 = .instr (.andReg 5 6) ∧
    decode 0x8783 = .instr (.xorReg 7 8) ∧ decode 0x89A4 = .instr (.addReg 9 0xA) ∧ decode 0x8BC5 = .instr (.sub 0xB 0xC) ∧
    decode 0x8DE6 = .instr (.shr 0xD 0xE) ∧ decode 0x8F07 = .instr (.subn 0xF 0) ∧ decode 0x812E = .instr (.shl 1 2) := by decide
theorem test_decode_xyn : decode 0xD12F = .instr (.drw 1 2 0xF) ∧ decode 0xD010 = .instr (.drw 0 1 0) := by decide
theorem test_decode_xs : decode 0xE59E = .instr (.skp 5) ∧ decode 0xE6A1 = .instr (.sknp 6) ∧ decode 0xF307 = .instr (.ldVxDt 3) ∧
    decode 0xF415 = .instr (.ldDtVx 4) ∧ decode 0xF51E = .instr (.addI 5) ∧ decode 0xFA29 = .instr (.ldF 0xA) ∧
    decode 0xFB33 = .instr (.ldB 0xB) ∧ decode 0xF255 = .instr (.ldStore 2) ∧ decode 0xFF65 = .instr (.ldLoad 0xF) := by decide
/-- V-E1 to V-E5. -/
theorem test_decode_illegal_0 : decode 0x0000 = .reject (.illegalWord 0x0000) ∧ decode 0x0123 = .reject (.illegalWord 0x0123) ∧
    decode 0x01E0 = .reject (.illegalWord 0x01E0) ∧ decode 0x00E1 = .reject (.illegalWord 0x00E1) ∧
    decode 0x00FF = .reject (.illegalWord 0x00FF) := by decide
/-- W7, V-E6, V-E7. -/
theorem test_decode_illegal_5_8_9 : decode 0x5121 = .reject (.illegalWord 0x5121) ∧ decode 0x912F = .reject (.illegalWord 0x912F) ∧
    decode 0x8008 = .reject (.illegalWord 0x8008) ∧ decode 0x800D = .reject (.illegalWord 0x800D) ∧
    decode 0x800F = .reject (.illegalWord 0x800F) := by decide
/-- V-E8 to V-E11. -/
theorem test_decode_illegal_E_F : decode 0xE19F = .reject (.illegalWord 0xE19F) ∧ decode 0xF00A = .reject (.illegalWord 0xF00A) ∧
    decode 0xF018 = .reject (.illegalWord 0xF018) ∧ decode 0xF000 = .reject (.illegalWord 0xF000) ∧
    decode 0xFFFF = .reject (.illegalWord 0xFFFF) := by decide
theorem test_decodeBytes_truncated : decodeBytes [0x12] = .error .truncated ∧ decodeBytes [] = .error .truncated ∧
    decodeBytes [0x12, 0x34, 0x56] = .ok (.jp 0x234, [0x56]) := ⟨rfl, rfl, rfl⟩
theorem test_decodeTableWord : decodeTableWord 16 0x8AB6 = some (.shr 0xA 0xB) ∧ decodeTableWord 16 0x5121 = none := by decide
/-- The syntax column of R79. -/
theorem test_disassembly_text : (decode2 0xD125).text = "DRW V1, V2, 5" ∧ (decode2 0x8236).text = "SHR V2" ∧
    (decode2 0xF355).text = "LD [I], V3" ∧ (decode2 0x3A0F).text = "SE VA, 0F" ∧ (decode2 0xB012).text = "JP V0, 012" ∧
    (decode2 0x00EE).text = "RET" ∧ (decode2 0xF00A).text = "ILLEGAL" := by decide +kernel

/-! ## One step of each instruction -/

/-- The start state of the vectors: the reset values, all keys released, the random byte 0. -/
def start : State := { State.reset with keys := Vector.replicate 16 false, draw := 0 }

/-- The state after one step of `s` with the word at `pc`, if the step answers one. -/
def run (op : Word) (s : State) : Option State :=
  match step (s.withFetchWord 16 op.toNat) with
  | .next t => some t
  | .fault _ => none
  | .refused _ => none

/-- What `f` reads after one step of the word. -/
def see {α : Type} (op : Word) (s : State) (f : State → α) : Option α := (run op s).map f

/-- The cells of the display that are set, among those listed. -/
def lit (s : State) (ks : List (Fin 2048)) : List Bool := ks.map s.display.cell

/-- `memory[0x300]` and `I` for a sprite or a block. -/
def at300 (bs : List Byte) : State := { start with i := 0x300, mem := start.mem.putAll 0x300 bs }

theorem test_cls : see 0x00E0 { start with display := (start.display.flip 0).flip 2047 } (fun t => (lit t [0, 1, 2047], t.pc))
    = some ([false, false, false], 0x202) := by decide
/-- V-C2. -/
theorem test_ret : see 0x00EE { start with stack := [0x20A, 0x300] } (fun t => (t.pc, t.stack)) = some (0x300, [0x20A]) := by decide
/-- V-C3. -/
theorem test_ret_underflow : see 0x00EE start (fun t => (t.pc, t.fault)) = some (0x200, some ⟨.stackUnderflow, 0x200⟩) := by decide
/-- V-C7. -/
theorem test_jp_odd : see 0x1201 start (fun t => (t.pc, t.stack)) = some (0x201, []) := by decide
/-- V-C10. -/
theorem test_call : see 0x2300 { start with stack := [0x20A] } (fun t => (t.pc, t.stack)) = some (0x300, [0x20A, 0x202]) := by decide
/-- V-C12. -/
theorem test_jpV0_unmasked : see 0xBFFF (start.setV 0 0xFF) (fun t => (t.pc, t.fault)) = some (0x10FE, none) := by decide
/-- V-C13. -/
theorem test_jpV0_only_v0 : see 0xB123 (start.setV 1 0x05) State.pc = some 0x123 := by decide
/-- W8. -/
theorem test_seImm_taken : see 0x3342 (start.setV 3 0x42) State.pc = some 0x204 := by decide
/-- W8. -/
theorem test_seImm_not : see 0x3343 (start.setV 3 0x42) State.pc = some 0x202 := by decide
/-- V-S4. -/
theorem test_sneImm_not : see 0x4342 (start.setV 3 0x42) State.pc = some 0x202 := by decide
/-- V-S5. -/
theorem test_sneImm_taken : see 0x4300 (start.setV 3 0x42) State.pc = some 0x204 := by decide
/-- V-S7. -/
theorem test_seReg_not : see 0x5120 ((start.setV 1 7).setV 2 8) State.pc = some 0x202 := by decide
/-- V-S8. -/
theorem test_seReg_taken : see 0x5550 (start.setV 5 9) State.pc = some 0x204 := by decide
/-- V-S9. -/
theorem test_sneReg_taken : see 0x9120 ((start.setV 1 7).setV 2 8) State.pc = some 0x204 := by decide
/-- V-S10. -/
theorem test_sneReg_not : see 0x9120 ((start.setV 1 7).setV 2 7) State.pc = some 0x202 := by decide
/-- V-S12. -/
theorem test_skp_taken : see 0xE59E { start.setV 5 5 with keys := start.keys.set 5 true } State.pc = some 0x204 := by decide
/-- V-S16. -/
theorem test_skp_out_of_range : see 0xE59E { start.setV 5 0x10 with keys := Vector.replicate 16 true } (fun t => (t.pc, t.fault))
    = some (0x200, some ⟨.keyOutOfRange 0x10 0xE59E, 0x200⟩) := by decide
/-- V-S14. -/
theorem test_sknp_taken : see 0xE5A1 (start.setV 5 0xA) State.pc = some 0x204 := by decide
/-- V-S17. -/
theorem test_sknp_not : see 0xEFA1 { start.setV 0xF 0xF with keys := start.keys.set 15 true } State.pc = some 0x202 := by decide
/-- V-A2. -/
theorem test_ldImm : see 0x6FAA start (fun t => (t.v 0xF, t.v 0xA, t.pc)) = some (0xAA, 0, 0x202) := by decide
/-- V-A3. -/
theorem test_addImm_wraps : see 0x7003 ((start.setV 0 0xFE).setV 0xF 0x55) (fun t => (t.v 0, t.v 0xF)) = some (0x01, 0x55) := by decide
/-- V-A5. -/
theorem test_addImm_vf : see 0x7F01 (start.setV 0xF 0xFF) (fun t => t.v 0xF) = some 0x00 := by decide
/-- V-A6. -/
theorem test_ldReg : see 0x8010 (start.setV 1 0x99) (fun t => (t.v 0, t.v 1)) = some (0x99, 0x99) := by decide
/-- V-A8. -/
theorem test_or : see 0x8011 (((start.setV 0 0x0F).setV 1 0xF0).setV 0xF 0x55) (fun t => (t.v 0, t.v 0xF)) = some (0xFF, 0x55) := by decide
/-- V-A12. -/
theorem test_or_vf : see 0x8F11 (start.setV 1 0x80) (fun t => t.v 0xF) = some 0x80 := by decide
/-- V-A9. -/
theorem test_and : see 0x8012 (((start.setV 0 0x3C).setV 1 0x0F).setV 0xF 0x55) (fun t => (t.v 0, t.v 0xF)) = some (0x0C, 0x55) := by decide
/-- V-A10. -/
theorem test_xor : see 0x8013 (((start.setV 0 0xFF).setV 1 0x0F).setV 0xF 0x55) (fun t => (t.v 0, t.v 0xF)) = some (0xF0, 0x55) := by decide
/-- V-A11. -/
theorem test_xor_same : see 0x8003 (start.setV 0 0x5A) (fun t => t.v 0) = some 0x00 := by decide
/-- V-A13. -/
theorem test_addReg_carry : see 0x8014 ((start.setV 0 0xFF).setV 1 0xFF) (fun t => (t.v 0, t.v 0xF)) = some (0xFE, 0x01) := by decide
/-- V-A15. -/
theorem test_addReg_x_is_f : see 0x8F04 ((start.setV 0xF 0xFF).setV 0 0x01) (fun t => t.v 0xF) = some 0x01 := by decide
/-- V-A18. -/
theorem test_sub_equal_is_strict : see 0x8015 ((start.setV 0 0x05).setV 1 0x05) (fun t => (t.v 0, t.v 0xF)) = some (0x00, 0x00) := by decide
/-- V-A21. -/
theorem test_sub_y_is_f : see 0x80F5 ((start.setV 0 0x01).setV 0xF 0x03) (fun t => (t.v 0, t.v 0xF)) = some (0xFE, 0x00) := by decide
/-- V-A24. -/
theorem test_shr_ignores_y : see 0x82F6 ((start.setV 2 0x04).setV 0xF 0xFF) (fun t => (t.v 2, t.v 0xF)) = some (0x02, 0x00) := by decide
/-- V-A25. -/
theorem test_shr_x_is_f : see 0x8F06 (start.setV 0xF 0x03) (fun t => t.v 0xF) = some 0x01 := by decide
/-- V-A27. -/
theorem test_subn : see 0x8017 ((start.setV 0 0x01).setV 1 0x03) (fun t => (t.v 0, t.v 0xF)) = some (0x02, 0x01) := by decide
/-- V-A28. -/
theorem test_subn_borrow : see 0x8017 ((start.setV 0 0x03).setV 1 0x01) (fun t => (t.v 0, t.v 0xF)) = some (0xFE, 0x00) := by decide
/-- V-A31. -/
theorem test_shl : see 0x820E (start.setV 2 0x81) (fun t => (t.v 2, t.v 0xF)) = some (0x02, 0x01) := by decide
/-- V-A34. -/
theorem test_shl_ignores_y : see 0x821E (start.setV 2 0xFF) (fun t => (t.v 2, t.v 1, t.v 0xF)) = some (0xFE, 0x00, 0x01) := by decide
/-- V-A35. -/
theorem test_rnd : see 0xC30F { start with draw := 0xB7 } (fun t => t.v 3) = some 0x07 := by decide
/-- V-M2. -/
theorem test_ldI : see 0xAFFF start (fun t => (t.i, t.pc, t.fault)) = some (0xFFF, 0x202, none) := by decide
/-- V-M3. -/
theorem test_addI : see 0xF01E { (start.setV 0 1).setV 0xF 0x55 with i := 0xFFF } (fun t => (t.i, t.v 0xF)) = some (0x1000, 0x55) := by decide
/-- V-M4. -/
theorem test_addI_wraps : see 0xF01E { start.setV 0 2 with i := 0xFFFF } State.i = some 0x0001 := by decide
/-- V-M8. -/
theorem test_ldF : see 0xF029 (start.setV 0 0x0F) State.i = some 0x04B := by decide
/-- V-M9. -/
theorem test_ldF_out_of_range : see 0xF029 (start.setV 0 0x10) (fun t => (t.pc, t.fault))
    = some (0x200, some ⟨.fontIndexOutOfRange 0x10 0xF029, 0x200⟩) := by decide
/-- V-M10. -/
theorem test_ldB : see 0xF033 { start.setV 0 0xFE with i := 0x300 } (fun t => [0x2FF, 0x300, 0x301, 0x302, 0x303].map t.mem.byteAt)
    = some [0x00, 0x02, 0x05, 0x04, 0x00] := by decide
/-- V-M12. -/
theorem test_ldB_out_of_range : see 0xF033 { start.setV 0 0xFF with i := 0xFFE } (fun t => (t.mem.byteAt 0xFFE, t.fault))
    = some (0x00, some ⟨.memOutOfRange 0x1000 0xF033, 0x200⟩) := by decide
/-- V-M13. -/
theorem test_ldStore : see 0xF255 { (((start.setV 0 1).setV 1 2).setV 2 3).setV 3 4 with i := 0x400 }
    (fun t => ([0x400, 0x401, 0x402, 0x403].map t.mem.byteAt, t.i)) = some ([0x01, 0x02, 0x03, 0x00], 0x400) := by decide
/-- V-M15. -/
theorem test_ldStore_out_of_range : see 0xF155 { start.setV 0 0xAB with i := 0xFFF } (fun t => (t.mem.byteAt 0xFFF, t.fault))
    = some (0x00, some ⟨.memOutOfRange 0x1000 0xF155, 0x200⟩) := by decide
/-- V-M17. -/
theorem test_ldLoad : see 0xF265 ((at300 [2, 5, 4, 9]).setV 3 7) (fun t => ([0, 1, 2, 3].map t.v, t.i)) = some ([2, 5, 4, 7], 0x300) := by decide
/-- V-M18. -/
theorem test_ldLoad_out_of_range : see 0xF165 { start.setV 0 0x77 with i := 0xFFF } (fun t => (t.v 0, t.fault))
    = some (0x77, some ⟨.memOutOfRange 0x1000 0xF165, 0x200⟩) := by decide
/-- V-T1. -/
theorem test_ldVxDt : see 0xF307 { start with dt := 0x3C } (fun t => (t.v 3, t.dt)) = some (0x3C, 0x3C) := by decide
/-- V-T3. -/
theorem test_ldDtVx : see 0xF315 (start.setV 3 0x3C) (fun t => (t.dt, t.st)) = some (0x3C, 0x00) := by decide
/-- V-D3: the row passes the right edge and comes back at the left of the same row. -/
theorem test_drw_wraps : see 0xD011 (((at300 [0xFF]).setV 0 0x3C).setV 1 0x1F)
    (fun t => (lit t [2043, 2044, 2047, 1984, 1987, 1988, 0], t.v 0xF))
    = some ([false, true, true, true, true, false, false], 0x00) := by decide
/-- V-D4. -/
theorem test_drw_collides : see 0xD011 { at300 [0xC0] with display := start.display.flip 0 } (fun t => (lit t [0, 1, 2], t.v 0xF))
    = some ([false, true, false], 0x01) := by decide

/-! ## The step and the host -/

/-- V-E14: a fetch at an odd address. -/
theorem test_fetch_odd : see 0x1234 { start with pc := 0x201 } State.pc = some 0x234 := by decide
/-- V-E15. -/
theorem test_fetch_out_of_range : see 0x6007 { start with pc := 0xFFF } (fun t => (t.v 0, t.fault))
    = some (0x00, some ⟨.fetchOutOfRange, 0xFFF⟩) := by decide
/-- W7. -/
theorem test_illegal_word : see 0x5121 start (fun t => (t.pc, t.fault)) = some (0x200, some ⟨.illegalOpcode 0x5121, 0x200⟩) := by decide
/-- R120: a stopped core takes no step. -/
theorem test_stopped : step { start with fault := some ⟨.fetchOutOfRange, 0xFFF⟩ } = .fault (.stopped ⟨.fetchOutOfRange, 0xFFF⟩) := rfl
/-- R131: both timers, floored at 0. -/
theorem test_tick : ({ start with dt := 3, st := 0 }.tick.dt, { start with dt := 3, st := 0 }.tick.st) = (0x02, 0x00) := by decide
/-- W2 and the table of R143: glyph 7 at 0x023, glyph F at 0x04B, the rest of memory as before. -/
theorem test_loadCharset : [0x000, 0x023, 0x024, 0x04B, 0x04F, 0x050, 0x200].map
    (({ start with mem := [(0x050, 0x11), (0x200, 0x60)] }.loadCharset defaultFont).mem.byteAt)
    = [0xF0, 0xF0, 0x10, 0xF0, 0x80, 0x11, 0x60] := by decide
/-- R144. -/
theorem test_loadRom : [0x1FF, 0x200, 0x201, 0x202].map ((start.loadRom [0x00, 0xEE]).mem.byteAt) = [0x00, 0x00, 0xEE, 0x00] := by decide
/-- R137: a run of self-jumps at 0x200 is over when `pc` is FIRST 0x200, coming from 0x1FE, and does not go on past it. -/
theorem test_endOfRun_first : endOfRun 0x200 { start with pc := 0x1FE, mem := [(0x1FE, 0x60), (0x1FF, 0x07), (0x200, 0x12)] }
    [.cycle start.keys 0, .tick, .cycle start.keys 0] = some 1 := by decide
/-- P8 and R137: the run is over at the fault, and a run that never reaches the named address has no end. -/
theorem test_endOfRun_fault : endOfRun 0x300 (start.withFetchWord 16 0x00EE) [.tick, .cycle start.keys 0, .reset] = some 2 ∧
    (runToEnd 0x300 (start.withFetchWord 16 0x00EE) [.tick, .cycle start.keys 0, .reset]).fault = some ⟨.stackUnderflow, 0x200⟩ ∧
    endOfRun 0x300 (start.withFetchWord 16 0x1200) [.cycle start.keys 0] = none := by decide
/-- R24 and R141. -/
theorem test_reset : (State.reset.pc, State.reset.i, State.reset.v 0xF, State.reset.stack, State.reset.fault)
    = (0x200, 0, 0, [], none) := by decide

/-! ## Witnesses: states and operands that meet the hypotheses of each statement, at the edges of each clause -/

theorem witness_StepKeepsWellFormed : State.reset.wf = true ∧ ∃ t, step State.reset = .next t := ⟨by decide, _, rfl⟩
theorem witness_HostRunKeepsWellFormed : start.wf = true ∧ (at300 [1, 2]).wf = true := by decide
theorem witness_CanonicalMemoryIsExtensional : Memory.wf [(0, 1), (4095, 2)] = true ∧
    ∀ a, Memory.byteAt [(0, 1), (4095, 2)] a = Memory.byteAt [(0, 1), (4095, 2)] a := ⟨by decide, fun _ => rfl⟩
theorem witness_EncodeOfDecodeIsIdentity : decode 0x8AB6 = .instr (.shr 0xA 0xB) ∧ decode 0xFFFF ≠ .instr .cls := by decide
theorem witness_BytesDecodeTwoAtATime : decodeBytes [0xF3, 0x55, 0x00] = .ok (.ldStore 3, [0x00]) := rfl
theorem witness_DisassemblyNamesTheSameInstruction : decode 0x8206 = .instr (.shr 2 0) ∧ decode 0x8216 = .instr (.shr 2 1) ∧
    decode2 0x8206 = decode2 0x8216 := by decide
theorem witness_FetchIsBigEndian : 4094 ≤ 4094 ∧ 4094 < 4095 := by decide
theorem witness_StepRunsDecodedInstruction :
    (start.withFetchWord 16 0x6A3C).fault = none ∧ fetchAt (start.withFetchWord 16 0x6A3C).mem 0x200 = some 0x6A3C ∧
    decode 0x6A3C = .instr (.ldImm 0xA 0x3C) := by decide
theorem witness_FetchOutsideMemoryFaults : ({ start with pc := 4095 } : State).fault = none ∧
    4094 < ({ start with pc := 4095 } : State).pc.toNat := by decide
theorem witness_IllegalWordFaults : State.reset.fault = none ∧ fetchAt State.reset.mem State.reset.pc.toNat = some 0x0000 ∧
    decode 0x0000 = .reject (.illegalWord 0x0000) := by decide
theorem witness_OnlyResetClearsFaultMark :
    ({ start with fault := some ⟨.stackUnderflow, 0x200⟩ } : State).fault = some ⟨.stackUnderflow, 0x200⟩ ∧
    HostAction.tick ≠ .reset := ⟨rfl, by decide⟩
/-- A step that faults and a step that completes. -/
theorem witness_FaultsArePreciseAndJustified : (∃ t, step start = .next t ∧ t.fault ≠ none) ∧
    ∃ t, step (start.withFetchWord 16 0x1200) = .next t ∧ t.fault = none := ⟨⟨_, rfl, by decide⟩, _, rfl, rfl⟩
/-- Each cause of R122 that a step can record, in a state it is justified in: one past the edge of each range. -/
theorem witness_fault_causes :
    (FaultRecord.mk .fetchOutOfRange 4095).justified { start with pc := 4095 } ∧
    (FaultRecord.mk (.illegalOpcode 0) 0x200).justified start ∧
    (FaultRecord.mk (.memOutOfRange 4096 0xF033) 0x200).justified { start.withFetchWord 16 0xF033 with i := 4094 } ∧
    (FaultRecord.mk .stackUnderflow 0x200).justified (start.withFetchWord 16 0x00EE) ∧
    (FaultRecord.mk (.keyOutOfRange 16 0xE19E) 0x200).justified ((start.withFetchWord 16 0xE19E).setV 1 16) ∧
    (FaultRecord.mk (.fontIndexOutOfRange 16 0xF129) 0x200).justified ((start.withFetchWord 16 0xF129).setV 1 16) :=
  ⟨⟨rfl, by decide⟩, ⟨rfl, by decide, by decide⟩, ⟨rfl, by decide, .ldB 0, by decide, by decide, by decide, by decide⟩,
    ⟨rfl, 0x00EE, by decide, by decide, by decide⟩, ⟨rfl, by decide, 1, .inl (by decide), by decide, by decide⟩,
    ⟨rfl, by decide, 1, by decide, by decide, by decide⟩⟩
theorem witness_FaultsDependOnStateOnly : (∃ t, step start = .next t) ∧
    ∃ u, step { start with keys := Vector.replicate 16 true, draw := 255, dt := 1, st := 2 } = .next u := ⟨⟨_, rfl⟩, _, rfl⟩
theorem witness_InputsReadOnlyByKeySkipsAndRandom : (∃ t, exec (.addReg 0 1) start = .next t) ∧
    (∀ x, Instr.addReg 0 1 ≠ .skp x) ∧ (∀ x, Instr.addReg 0 1 ≠ .sknp x) ∧ ∀ x kk, Instr.addReg 0 1 ≠ .rnd x kk :=
  ⟨⟨_, rfl⟩, by simp⟩
theorem witness_StepKeepsPcBounded : ({ start with pc := 0x10FE, stack := [4096] } : State).pcBounded ∧
    ∃ t, step { start with pc := 0x10FE, stack := [4096] } = .next t :=
  ⟨⟨by decide, by simp⟩, _, rfl⟩
/-- `pc` at the last address a word is fetched from, for each kind of instruction. -/
theorem witness_NextPcByKind : ({ start with pc := 4094, stack := [4096] } : State).pc.toNat ≤ 4094 ∧
    ∀ i ∈ [Instr.jp 1, .call 2, .jpV0 3, .ret, .seImm 0 0, .sneImm 0 0, .seReg 0 1, .sneReg 0 1, .skp 0, .sknp 0, .cls],
      ∃ t, exec i { start with pc := 4094, stack := [4096] } = .next t ∧ t.fault = none := by
  refine ⟨by decide, fun i hi => ?_⟩
  simp only [List.mem_cons, List.not_mem_nil, or_false] at hi
  rcases hi with rfl | rfl | rfl | rfl | rfl | rfl | rfl | rfl | rfl | rfl | rfl <;> exact ⟨_, rfl, rfl⟩
/-- For each clause an instruction that its exceptions do not name, and for the first a store of no other kind. -/
theorem witness_WritersOfEachStateElement : (∃ t, exec (.ldReg 0 1) start = .next t) ∧ (∀ x, Instr.ldReg 0 1 ≠ .ldB x) ∧
    (∀ x, Instr.ldReg 0 1 ≠ .ldStore x) ∧ (∀ nnn, Instr.ldReg 0 1 ≠ .ldI nnn) ∧ (∀ x, Instr.ldReg 0 1 ≠ .addI x) ∧
    (∀ x, Instr.ldReg 0 1 ≠ .ldF x) ∧ (∀ nnn, Instr.ldReg 0 1 ≠ .call nnn) ∧ Instr.ldReg 0 1 ≠ .ret ∧
    Instr.ldReg 0 1 ≠ .cls ∧ (∀ x y n, Instr.ldReg 0 1 ≠ .drw x y n) ∧ (∀ x, Instr.ldReg 0 1 ≠ .ldDtVx x) ∧
    canFault (.ldReg 0 1) = false ∧ setsTarget (.ldReg 0 1) = false :=
  ⟨⟨_, rfl⟩, by simp [canFault, setsTarget]⟩
/-- The tables of R22, R33 and R122, at a flag instruction, a block load and a call. -/
theorem test_writers_tables : regsWritten (.sub 3 4) = [3, 0xF] ∧ regsWritten (.ldLoad 2) = [0, 1, 2] ∧
    regsWritten (.drw 1 2 3) = [0xF] ∧ regsWritten (.ldStore 2) = [] ∧ canFault (.call 1) = false ∧ canFault .ret = true := by
  decide
theorem witness_RetPopsReturnAddress : ({ start with stack := [0x20A] ++ [0x300] } : State).stack = [0x20A] ++ [0x300] ∧
    start.stack = [] := by decide
/-- A depth not reached, a depth reached, and `pc` at the last address a word is fetched from. -/
theorem witness_CallPushesReturnAddress : ({ start with stack := [0x202] } : State).stack.length < 2 ∧
    ({ start with stack := [0x202] } : State).stack.length = 1 ∧ ({ start with pc := 4094 } : State).pc.toNat ≤ 4094 := by decide
theorem witness_SelfJumpHoldsState : (start.withFetchWord 16 0x1200).fault = none ∧
    (start.withFetchWord 16 0x1200).pc.toNat = (0x200 : Addr12).toNat ∧
    fetchAt (start.withFetchWord 16 0x1200).mem 0x200 = some (encode (.jp 0x200)) ∧
    ∀ a ∈ [HostAction.cycle start.keys 7, .tick, .readDisplay, .serialize, .stop],
      (∃ keys draw, a = .cycle keys draw) ∨ a = .tick ∨ a = .readDisplay ∨ a = .serialize ∨ a = .stop := by
  refine ⟨by decide, by decide, by decide, fun a ha => ?_⟩
  simp only [List.mem_cons, List.not_mem_nil, or_false] at ha
  rcases ha with rfl | ha
  · exact .inl ⟨_, _, rfl⟩
  · exact .inr ha
theorem witness_RetAfterCallResumes : ∃ t u, exec (.call 0x300) start = .next t ∧ exec .ret t = .next u := ⟨_, _, rfl, rfl⟩
theorem witness_RegisterSkips : (1 : Fin 16) ≠ 0 ∧ (15 : Fin 16) ≠ 0 := by decide
theorem witness_KeySkips : ((start.setV 0 15).v 0).toNat < 16 ∧ 15 < ((start.setV 0 16).v 0).toNat := by decide
/-- The destination may be any register but `VF` for the result of `ADD`, `SUB`, `SUBN`, `SHR` and `SHL` to remain. -/
theorem witness_flag_instructions : (14 : RegIdx) ≠ regF := by decide
theorem witness_FontAddressOfDigit : ((start.setV 0 15).v 0).toNat ≤ 15 ∧ 15 < ((start.setV 0 16).v 0).toNat := by decide
theorem witness_BcdStoresThreeDigits : start.mem.wf = true ∧ ({ start with i := 4093 } : State).i.toNat + 2 ≤ 4095 ∧
    4095 < ({ start with i := 4094 } : State).i.toNat + 2 := by decide
theorem witness_BlockStore : (at300 [1]).mem.wf = true ∧ ({ start with i := 4080 } : State).i.toNat + (15 : RegIdx).val ≤ 4095 ∧
    4095 < ({ start with i := 4081 } : State).i.toNat + (15 : RegIdx).val := by decide
theorem witness_BlockLoad : ({ start with i := 4095 } : State).i.toNat + (0 : RegIdx).val ≤ 4095 ∧
    4095 < ({ start with i := 4096 } : State).i.toNat + (0 : RegIdx).val := by decide
theorem witness_LoadAfterStoreRestores : (at300 [9]).mem.wf = true ∧ (at300 [9]).i.toNat + (1 : RegIdx).val ≤ 4095 ∧
    ∃ t u, exec (.ldStore 1) (at300 [9]) = .next t ∧ exec (.ldLoad 1) t = .next u := ⟨by decide, by decide, _, _, rfl, rfl⟩
theorem witness_StoredCodeIsFetched : start.mem.wf = true ∧ ({ start with i := 4094 } : State).i.toNat + (1 : RegIdx).val ≤ 4095 ∧
    (1 : RegIdx).val = (0 : RegIdx).val + 1 ∧ ∃ t, exec (.ldStore 1) { start with i := 4094 } = .next t :=
  ⟨by decide, by decide, by decide, _, rfl⟩
theorem witness_SoundTimerStaysZero : start.st = 0 ∧
    ∀ p, HostAction.restore p ∉ [HostAction.cycle start.keys 7, .tick, .reset, .loadRom [1]] := by
  refine ⟨rfl, fun p h => ?_⟩
  simp at h
/-- No row at an `I` far outside memory, a sprite that ends at the last byte, and one that passes it. -/
theorem witness_DrwFlipsCoveredCells : (0 : Fin 16).val = 0 ∧ ({ start with i := 4081 } : State).i.toNat + (15 : Fin 16).val ≤ 4096 ∧
    (15 : Fin 16).val ≠ 0 ∧ 4096 < ({ start with i := 4082 } : State).i.toNat + (15 : Fin 16).val := by decide
theorem witness_DrwLaws : (∃ t, exec (.drw 0 1 0) { start with i := 0xFFFF } = .next t) ∧
    cellAt (62 + 3) (30 + 4) = cellAt (62 + 3) (30 + 4) ∧
    (at300 [0xC0]).i.toNat + (1 : Fin 16).val ≤ 4096 ∧ (∀ k, (at300 [0xC0]).display.cell k = false) ∧
    ∃ t u, exec (.drw 0 1 1) (at300 [0xC0]) = .next t ∧ t.v 0 = (at300 [0xC0]).v 0 ∧ t.v 1 = (at300 [0xC0]).v 1 ∧
      exec (.drw 0 1 1) t = .next u :=
  ⟨⟨_, rfl⟩, rfl, by decide, fun _ => by simp [at300, start, State.reset, Display.cell], _, _, rfl, rfl, rfl, rfl⟩
theorem witness_LoadCharsetCopiesFont : start.mem.wf = true ∧ 79 < 80 := by decide
theorem witness_LoadRomCopiesImage : start.mem.wf = true ∧ (List.replicate 3584 (0xFF : Byte)).length ≤ 3584 ∧
    3584 < (List.replicate 3585 (0xFF : Byte)).length :=
  ⟨by decide, List.length_replicate.le, by rw [List.length_replicate]; decide⟩
theorem witness_BootEstablishesLaunchState : (List.replicate 3584 (0xFF : Byte)).length ≤ 3584 :=
  List.length_replicate.le
theorem witness_RestoreOfSerializeIsIdentity : (at300 [1, 2]).wf = true ∧ { blank with pc := 65536 }.wf = false :=
  ⟨by decide, by decide +kernel⟩
theorem witness_CycleUsesHostInputs :
    (start.withFetchWord 16 0xE09E).fault = none ∧ fetchAt (start.withFetchWord 16 0xE09E).mem 0x200 = some 0xE09E ∧
    ((start.withFetchWord 16 0xE09E).v 0).toNat < 16 ∧ decode 0xE09E = .instr (.skp 0) ∧
    fetchAt ((start.withFetchWord 16 0xE0A1).setV 0 15).mem 0x200 = some 0xE0A1 ∧
    (((start.withFetchWord 16 0xE0A1).setV 0 15).v 0).toNat < 16 ∧ decode 0xE0A1 = .instr (.sknp 0) ∧
    fetchAt (start.withFetchWord 16 0xC0FF).mem 0x200 = some 0xC0FF ∧ decode 0xC0FF = .instr (.rnd 0 0xFF) := by decide

end Sys2Proof.Tests
end

section
/-! SUPPORT. A legal word is the encoding of the instruction it decodes to, so the word that an instruction's own fault
records is the word that was fetched (R72; log entry 11). -/

namespace Sys2Proof

variable {op : Word} {i : Instr}

/-! ## A word from the fields that select its instruction -/

theorem formatA_eq_of_fieldA {a : BitVec 4} (ha : (fieldA op).toNat = a.toNat) : formatA a (fieldNNN op) = op := by
  rw [← BitVec.eq_of_toNat_eq ha, formatA_fields]

theorem formatXK_eq_of_fields {a : BitVec 4} {kk : Byte} (ha : (fieldA op).toNat = a.toNat)
    (hk : (fieldKK op).toNat = kk.toNat) : formatXK a (fieldX op) kk = op := by
  rw [← BitVec.eq_of_toNat_eq ha, ← BitVec.eq_of_toNat_eq hk, formatXK_fields]

theorem formatXYN_eq_of_fields {a : BitVec 4} {n : Fin 16} (ha : (fieldA op).toNat = a.toNat)
    (hn : (fieldN op).val = n.val) : formatXYN a (fieldX op) (fieldY op) n = op := by
  rw [← BitVec.eq_of_toNat_eq ha, ← Fin.ext hn, formatXYN_fields]

/-! ## The decoder, group by group -/

theorem encode_of_decodeGroup8 (ha : (fieldA op).toNat = 0x8) (h : decodeGroup8 op = .instr i) : encode i = op := by
  unfold decodeGroup8 at h
  split at h <;> cases h
  all_goals next hn => exact formatXYN_eq_of_fields ha hn

theorem encode_of_decodeGroupE (ha : (fieldA op).toNat = 0xE) (h : decodeGroupE op = .instr i) : encode i = op := by
  unfold decodeGroupE at h
  split at h <;> cases h
  all_goals next hk => exact formatXK_eq_of_fields ha hk

theorem encode_of_decodeGroupF (ha : (fieldA op).toNat = 0xF) (h : decodeGroupF op = .instr i) : encode i = op := by
  unfold decodeGroupF at h
  split at h <;> cases h
  all_goals next hk => exact formatXK_eq_of_fields ha hk

/-- No bit of a legal word is dropped by the decoder. -/
theorem encode_of_decode (h : decode op = .instr i) : encode i = op := by
  unfold decode at h
  split at h
  case h_1 =>
    split_ifs at h with hcls hret <;> cases h
    · exact hcls.symm
    · exact hret.symm
  case h_2 ha | h_3 ha | h_11 ha | h_12 ha => cases h; exact formatA_eq_of_fieldA ha
  case h_4 ha | h_5 ha | h_7 ha | h_8 ha | h_13 ha => cases h; exact formatXK_eq_of_fields ha rfl
  case h_6 ha | h_10 ha =>
    split_ifs at h with hn
    cases h
    exact formatXYN_eq_of_fields ha (congrArg Fin.val hn)
  case h_9 ha => exact encode_of_decodeGroup8 ha h
  case h_14 ha => cases h; exact formatXYN_eq_of_fields ha rfl
  case h_15 ha => exact encode_of_decodeGroupE ha h
  case h_16 ha => exact encode_of_decodeGroupF ha h
  case h_17 => cases h

end Sys2Proof
end

section
/-! SUPPORT. Precise faults: which records are justified in a state, by what the fetch and the decoder answer, and that a
step records the one justified record and changes nothing else, or completes because there is none (R15, R120, R122, R126). -/

namespace Sys2Proof.Machine

variable {s t : State} {op : Word} {i : Instr} {c : FaultCause} {r : FaultRecord}

/-! ## The fault of one instruction (R122) -/

/-- The cause `c` of R122 stands for the instruction `i` in the state `s`: what `FaultRecord.justified` asks for beyond the
fetch and the decoding of `i`. -/
def FaultCause.standsFor (c : FaultCause) (i : Instr) (s : State) : Prop :=
  match c with
  | .fetchOutOfRange => False
  | .illegalOpcode _ => False
  | .memOutOfRange addr op =>
      op = encode i ∧ dataBytes i ≠ 0 ∧ 4095 < s.i.toNat + (dataBytes i - 1) ∧ addr = max s.i.toNat 4096
  | .stackUnderflow => i = .ret ∧ s.stack = []
  | .stackOverflow => ∃ nnn d, i = .call nnn ∧ Config.stackDepth = some d ∧ d ≤ s.stack.length
  | .keyOutOfRange vx op => op = encode i ∧ ∃ x, (i = .skp x ∨ i = .sknp x) ∧ vx = s.v x ∧ 15 < vx.toNat
  | .fontIndexOutOfRange vx op => op = encode i ∧ ∃ x, i = .ldF x ∧ vx = s.v x ∧ 15 < vx.toNat

/-- An instruction's own fault is the one cause of R122 that stands for it. -/
theorem faultOf_eq_some_iff : faultOf i s = some c ↔ c.standsFor i s := by
  unfold faultOf
  split
  -- an instruction with a rule of its own accesses no data, and any other can only leave memory
  case h_1 | h_3 | h_4 | h_5 => cases c <;> grind [FaultCause.standsFor, dataBytes]
  case h_2 => cases c <;> simp [FaultCause.standsFor, dataBytes, stackFull, Config.stackDepth]
  case h_6 hret hcall hskp hsknp hldF => cases c <;> grind [FaultCause.standsFor, Config.memSize]

/-! ## Which records are justified (R126: the fetch first, then the decoder, then the instruction) -/

theorem pc_le_of_fetchAt (hop : fetchAt s.mem s.pc.toNat = some op) : s.pc.toNat ≤ 4094 := by
  by_contra hgt
  rw [fetchAt_of_gt (by omega)] at hop
  exact nomatch hop

theorem justified_iff_of_pc_gt (hpc : 4094 < s.pc.toNat) : r.justified s ↔ r = ⟨.fetchOutOfRange, s.pc⟩ := by
  obtain ⟨cause, pc⟩ := r
  cases cause <;> simp [FaultRecord.justified, fetchAt_of_gt hpc, hpc]

theorem justified_iff_of_reject {why : Reject} (hop : fetchAt s.mem s.pc.toNat = some op) (hd : decode op = .reject why) :
    r.justified s ↔ r = ⟨.illegalOpcode op, s.pc⟩ := by
  have hpc := pc_le_of_fetchAt hop
  obtain rfl := decode_reject hd
  obtain ⟨cause, pc⟩ := r
  cases cause <;> grind [FaultRecord.justified]

theorem justified_iff_of_instr (hop : fetchAt s.mem s.pc.toNat = some op) (hd : decode op = .instr i) :
    r.justified s ↔ r.pc = s.pc ∧ faultOf i s = some r.cause := by
  have hpc := pc_le_of_fetchAt hop
  have henc := encode_of_decode hd
  rw [faultOf_eq_some_iff]
  refine and_congr_right fun _ => ?_
  cases r.cause <;> grind [FaultCause.standsFor]

/-! ## A step records the one justified record (R15, R120) -/

/-- An instruction that answers a next state keeps the fault mark, or takes the fault of its own that stands. -/
theorem exec_next_cases (h : exec i s = .next t) :
    (faultOf i s = none ∧ t.fault = s.fault) ∨
    (∃ c, faultOf i s = some c ∧ t = { s with fault := some ⟨c, s.pc⟩ }) := by
  have hout := exec_outcome i s
  cases hf : faultOf i s with
  | none =>
    rw [hf] at hout
    obtain ⟨u, hu, hfault, -⟩ := hout
    obtain rfl : u = t := by simpa [hu] using h
    exact .inl ⟨rfl, hfault⟩
  | some c =>
    rw [hf] at hout
    exact .inr ⟨c, rfl, takeFault_next (hout ▸ h)⟩

/-- The state that a step leaves when it records `r`: the state before it, with the inputs of the next cycle. -/
def State.recording (s : State) (r : FaultRecord) : State := { s with fault := some r }.freshInputs

/-- A step completes when no record is justified in the state before it, and otherwise records the only one that is. -/
theorem step_completes_or_records (h : step s = .next t) :
    (t.fault = none ∧ ∀ r : FaultRecord, ¬ r.justified s) ∨
    (∃ r, t = s.recording r ∧ ∀ r' : FaultRecord, r'.justified s ↔ r' = r) := by
  obtain ⟨hrun, u, rfl, ⟨hpc, rfl⟩ | ⟨op, hop, ⟨why, hd⟩, rfl⟩ | ⟨op, i, hop, hd, hu⟩⟩ := step_cases h
  · exact .inr ⟨_, rfl, fun _ => justified_iff_of_pc_gt hpc⟩
  · exact .inr ⟨_, rfl, fun _ => justified_iff_of_reject hop hd⟩
  · obtain ⟨hf, hfault⟩ | ⟨c, hf, rfl⟩ := exec_next_cases hu
    · exact .inl ⟨hfault.trans hrun, fun r hr => by simp [justified_iff_of_instr hop hd, hf] at hr⟩
    · refine .inr ⟨_, rfl, fun r => ?_⟩
      obtain ⟨cause, pc⟩ := r
      simp only [justified_iff_of_instr hop hd, hf, Option.some_inj, FaultRecord.mk.injEq]
      tauto

/-- Justification reads neither the fault mark nor the inputs of a cycle, so a record stays justified when it is taken. -/
theorem justified_recording {r' : FaultRecord} : r'.justified (s.recording r) ↔ r'.justified s := Iff.rfl

end Sys2Proof.Machine

open Sys2Proof.Machine

/-- Settles O19: a step that completes leaves no cause of R122 standing before it, and a step that faults leaves the state
before it with the one record that is justified there. -/
theorem faultsArePreciseAndJustified : Obligations.FaultsArePreciseAndJustified := by
  intro s t h
  obtain ⟨hnone, hr⟩ | ⟨r, rfl, hr⟩ := step_completes_or_records h
  · exact ⟨fun r => by simp [hnone, hr r], fun hsome => absurd hnone hsome, fun r h => by simp [hnone] at h⟩
  · have hfault : ∀ r', (s.recording r).fault = some r' ↔ r'.justified s := fun r' => by
      rw [hr]
      exact Option.some_inj.trans eq_comm
    exact ⟨hfault, fun _ => rfl, fun r' h => justified_recording.mpr ((hfault r').mp h)⟩
end

section
/-! SUPPORT. What an instruction leaves when it completes, as one state, and what each piece of that state is (R24, R33, R76). -/

namespace Sys2Proof.Machine

variable {s t : State} {i : Instr}

/-- The bytes that an instruction that completes stores from address `I` upward (R111, R112). -/
def bytesStored : Instr → State → List Byte
  | .ldB x, s => bcdDigits (s.v x)
  | .ldStore x, s => s.regBlock x
  | _, _ => []

/-- The state that an instruction leaves when it completes; `exec_eq_completed` is what ties it to the model. -/
def completed : Instr → State → State
  | .cls, s => { s with display := Display.clear }.advance
  | .ret, s => { s with pc := s.stack.getLast?.getD s.pc, stack := s.stack.dropLast }
  | .jp nnn, s => { s with pc := zextAddr nnn }
  | .call nnn, s => { s.push (s.pc + 2) with pc := zextAddr nnn }
  | .seImm x kk, s => s.skipIf (s.v x == kk)
  | .sneImm x kk, s => s.skipIf (s.v x != kk)
  | .seReg x y, s => s.skipIf (s.v x == s.v y)
  | .ldImm x kk, s => (s.setV x kk).advance
  | .addImm x kk, s => (s.setV x (s.v x + kk)).advance
  | .ldReg x y, s => (s.setV x (s.v y)).advance
  | .orReg x y, s => (s.setV x (s.v x ||| s.v y)).advance
  | .andReg x y, s => (s.setV x (s.v x &&& s.v y)).advance
  | .xorReg x y, s => (s.setV x (s.v x ^^^ s.v y)).advance
  | .addReg x y, s => (s.setVFlag x (s.v x + s.v y) (carryFlag (s.v x) (s.v y))).advance
  | .sub x y, s => (s.setVFlag x (s.v x - s.v y) (greaterFlag (s.v x) (s.v y))).advance
  | .shr x _, s => (s.setVFlag x (s.v x >>> 1) (lowBitFlag (s.v x))).advance
  | .subn x y, s => (s.setVFlag x (s.v y - s.v x) (greaterFlag (s.v y) (s.v x))).advance
  | .shl x _, s => (s.setVFlag x (s.v x <<< 1) (highBitFlag (s.v x))).advance
  | .sneReg x y, s => s.skipIf (s.v x != s.v y)
  | .ldI nnn, s => { s with i := zextAddr nnn }.advance
  | .jpV0 nnn, s => { s with pc := (s.v 0).setWidth 16 + zextAddr nnn }
  | .rnd x kk, s => (s.setV x (s.draw &&& kk)).advance
  | .drw x y n, s =>
    ({ s with display := (drwCanvas s x y n).display }.setFlag (flagByte (drwCanvas s x y n).collision)).advance
  | .skp x, s => s.skipIf ((s.keyPressed (s.v x)).getD false)
  | .sknp x, s => s.skipIf !((s.keyPressed (s.v x)).getD false)
  | .ldVxDt x, s => (s.setV x s.dt).advance
  | .ldDtVx x, s => { s with dt := s.v x }.advance
  | .addI x, s => { s with i := s.i + (s.v x).setWidth 16 }.advance
  | .ldF x, s => { s with i := BitVec.ofNat 16 (5 * (s.v x).toNat) }.advance
  | .ldB x, s => { s with mem := s.mem.putAll s.i.toNat (bytesStored (.ldB x) s) }.advance
  | .ldStore x, s => { s with mem := s.mem.putAll s.i.toNat (bytesStored (.ldStore x) s) }.advance
  | .ldLoad x, s => (s.loadRegs ((List.range (x.val + 1)).map fun k => s.mem.byteAt (s.i.toNat + k))).advance

/-! ## When an instruction raises no fault (R122) -/

theorem faultOf_skp_eq_none {x : RegIdx} : faultOf (.skp x) s = none ↔ (s.v x).toNat < 16 := by
  simp [faultOf, Nat.lt_succ_iff]

theorem faultOf_sknp_eq_none {x : RegIdx} : faultOf (.sknp x) s = none ↔ (s.v x).toNat < 16 := by
  simp [faultOf, Nat.lt_succ_iff]

theorem faultOf_ldF_eq_none {x : RegIdx} : faultOf (.ldF x) s = none ↔ (s.v x).toNat < 16 := by
  simp [faultOf, Nat.lt_succ_iff]

theorem faultOf_eq_none_of_canFault (h : canFault i = false) : faultOf i s = none := by
  cases i with
  | ret | drw | skp | sknp | ldF | ldB | ldStore | ldLoad => exact nomatch h
  | call nnn => rfl
  | _ => simp [faultOf, dataBytes]

/-! ## The two ends of an instruction: completed, or its fault (R120) -/

/-- An instruction that `faultOf` names no fault for leaves the state that `completed` says. -/
theorem exec_eq_completed (h : faultOf i s = none) : exec i s = .next (completed i s) := by
  cases i with
  | ret =>
    obtain ⟨hs, -⟩ | ⟨st, w, hs, hexec⟩ := execRet_cases s
    · simp [faultOf, hs] at h
    · exact hexec.trans (by simp [completed, hs])
  | drw x y n =>
    obtain ⟨-, hexec⟩ | ⟨hn, hm, -⟩ := execDrw_cases x y n s
    · exact hexec
    · simp [faultOf, dataBytes, hn, hm] at h
  | skp x => simp [exec, execSkp, completed, State.keyPressed_of_lt s _ (faultOf_skp_eq_none.mp h)]
  | sknp x => simp [exec, execSknp, completed, State.keyPressed_of_lt s _ (faultOf_sknp_eq_none.mp h)]
  | ldF x => simp [exec, execLdF, completed, glyphAddr_of_lt _ (faultOf_ldF_eq_none.mp h)]
  | ldB x =>
    obtain ⟨-, hexec⟩ | ⟨-, hm, -⟩ := storeAtI_cases (bcdDigits (s.v x)) (encode (.ldB x)) s
    · exact hexec
    · exact absurd hm (by simpa [faultOf, dataBytes] using h)
  | ldStore x =>
    obtain ⟨-, hexec⟩ | ⟨-, hm, -⟩ := storeAtI_cases (s.regBlock x) (encode (.ldStore x)) s
    · exact hexec
    · exact absurd hm (by simpa [faultOf, dataBytes] using h)
  | ldLoad x =>
    obtain ⟨-, hexec⟩ | ⟨hm, -⟩ := execLdLoad_cases x s
    · exact hexec
    · simp [faultOf, dataBytes, hm] at h
  | _ => rfl

/-- Everything an instruction can leave: the completed state, or the state before it with its own fault recorded. -/
theorem eq_completed_or_faulted (h : exec i s = .next t) :
    (faultOf i s = none ∧ t = completed i s) ∨ (∃ c, faultOf i s = some c ∧ FaultedAt c s t) := by
  obtain ⟨hf, -⟩ | hfault := exec_next_cases h
  · rw [exec_eq_completed hf] at h
    injection h with h
    exact .inl ⟨hf, h.symm⟩
  · exact .inr hfault

/-- Everything a step can leave: the state before it with a fault recorded, or what an instruction fetched inside memory
leaves when it completes; and the inputs of the next cycle. -/
theorem eq_recording_or_completed (h : step s = .next t) :
    (∃ r, t = s.recording r) ∨
    (∃ i, s.pc.toNat ≤ 4094 ∧ faultOf i s = none ∧ t = (completed i s).freshInputs) := by
  obtain ⟨-, u, rfl, ⟨-, rfl⟩ | ⟨op, -, -, rfl⟩ | ⟨op, i, hop, -, hu⟩⟩ := step_cases h
  · exact .inl ⟨_, rfl⟩
  · exact .inl ⟨_, rfl⟩
  · obtain ⟨hf, rfl⟩ | ⟨c, -, rfl⟩ := eq_completed_or_faulted hu
    · exact .inr ⟨i, pc_le_of_fetchAt hop, hf, rfl⟩
    · exact .inl ⟨_, rfl⟩

/-! ## What completing writes and leaves (R33) -/

@[simp] theorem completed_st : (completed i s).st = s.st := by cases i <;> rfl
@[simp] theorem completed_fault : (completed i s).fault = s.fault := by cases i <;> rfl
@[simp] theorem completed_keys : (completed i s).keys = s.keys := by cases i <;> rfl
@[simp] theorem completed_draw : (completed i s).draw = s.draw := by cases i <;> rfl
@[simp] theorem completed_cycleNo : (completed i s).cycleNo = s.cycleNo := by cases i <;> rfl

@[simp] theorem completed_mem : (completed i s).mem = s.mem.putAll s.i.toNat (bytesStored i s) := by cases i <;> rfl

theorem bytesStored_eq_nil (hB : ∀ x, i ≠ .ldB x) (hStore : ∀ x, i ≠ .ldStore x) : bytesStored i s = [] := by
  cases i with
  | ldB x => exact absurd rfl (hB x)
  | ldStore x => exact absurd rfl (hStore x)
  | _ => rfl

/-- A store that does not fault stays inside memory (R49). -/
theorem bytesStored_fits (h : faultOf i s = none) :
    bytesStored i s = [] ∨ s.i.toNat + (bytesStored i s).length ≤ Config.memSize := by
  cases i with
  | ldB x => exact .inr (by simpa [faultOf, dataBytes, bytesStored] using h)
  | ldStore x => exact .inr (by simpa [faultOf, dataBytes, bytesStored] using h)
  | _ => exact .inl rfl

/-- A load of a block leaves the registers past its end (R113). -/
theorem v_loadRegs_of_length_le {bs : List Byte} {j : RegIdx} (h : bs.length ≤ j.val) : (s.loadRegs bs).v j = s.v j := by
  rw [State.v_loadRegs, List.getD_eq_default _ _ h]

theorem completed_regs : RegsSameExcept (regsWritten i) s (completed i s) := by
  intro j hj
  cases i with
  | ldImm | addImm | ldReg | orReg | andReg | xorReg | rnd | ldVxDt | addReg | sub | shr | subn | shl =>
    simp_all [completed, regsWritten]
  | drw x y n => exact (State.v_setFlag _ j _).trans (if_neg (by simpa [regsWritten] using hj))
  | ldLoad x =>
    have hx : x.val < j.val := by simpa [regsWritten] using hj
    exact v_loadRegs_of_length_le (by simpa using hx)
  | _ => rfl

theorem completed_i (hI : ∀ nnn, i ≠ .ldI nnn) (hAdd : ∀ x, i ≠ .addI x) (hF : ∀ x, i ≠ .ldF x) :
    (completed i s).i = s.i := by
  cases i with
  | ldI nnn => exact absurd rfl (hI nnn)
  | addI x => exact absurd rfl (hAdd x)
  | ldF x => exact absurd rfl (hF x)
  | _ => rfl

theorem completed_stack (hCall : ∀ nnn, i ≠ .call nnn) (hRet : i ≠ .ret) : (completed i s).stack = s.stack := by
  cases i with
  | call nnn => exact absurd rfl (hCall nnn)
  | ret => exact absurd rfl hRet
  | _ => rfl

theorem completed_display (hCls : i ≠ .cls) (hDrw : ∀ x y n, i ≠ .drw x y n) : (completed i s).display = s.display := by
  cases i with
  | cls => exact absurd rfl hCls
  | drw x y n => exact absurd rfl (hDrw x y n)
  | _ => rfl

theorem completed_dt (hDt : ∀ x, i ≠ .ldDtVx x) : (completed i s).dt = s.dt := by
  cases i with
  | ldDtVx x => exact absurd rfl (hDt x)
  | _ => rfl

/-! ## The next program counter (R24, R76) -/

theorem skipIf_pc_eq_or (c : Bool) : (s.skipIf c).pc = s.pc + 2 ∨ (s.skipIf c).pc = s.pc + 4 := by
  cases c
  · exact .inl rfl
  · exact .inr rfl

theorem completed_pc_of_no_target (h : setsTarget i = false) :
    (completed i s).pc = s.pc + 2 ∨ (completed i s).pc = s.pc + 4 := by
  cases i with
  | jp | call | jpV0 | ret => exact nomatch h
  | seImm | sneImm | seReg | sneReg | skp | sknp => exact skipIf_pc_eq_or _
  | _ => exact .inl rfl

theorem advance_pc_toNat (hpc : s.pc.toNat ≤ 4094) : s.advance.pc.toNat = s.pc.toNat + 2 := by
  rw [State.advance_pc]
  bv_omega

theorem skipIf_pc_toNat {c : Bool} {p : Prop} [Decidable p] (hc : c = true ↔ p) (hpc : s.pc.toNat ≤ 4094) :
    (s.skipIf c).pc.toNat = s.pc.toNat + (if p then 4 else 2) := by
  rw [State.skipIf_pc]
  simp only [hc]
  split_ifs <;> bv_omega

theorem skipIf_not_pc_toNat {c : Bool} {p : Prop} [Decidable p] (hc : c = true ↔ ¬ p) (hpc : s.pc.toNat ≤ 4094) :
    (s.skipIf c).pc.toNat = s.pc.toNat + (if p then 2 else 4) := by
  rw [skipIf_pc_toNat hc hpc, ite_not]

@[simp] theorem zextAddr_toNat (nnn : Addr12) : (zextAddr nnn).toNat = nnn.toNat :=
  BitVec.toNat_setWidth_of_le (by decide)

/-- The target of `JP V0` fits its 16 bits (R87, D7). -/
theorem jpV0_pc_toNat (nnn : Addr12) : (completed (.jpV0 nnn) s).pc.toNat = (s.v 0).toNat + nnn.toNat := by
  have := (s.v 0).isLt; have := nnn.isLt
  simp only [completed, BitVec.toNat_add, BitVec.toNat_setWidth, zextAddr_toNat]
  omega

/-- A return that completes takes the last entry of the stack (R84). -/
theorem ret_pc (h : faultOf .ret s = none) : s.stack.getLast? = some (completed .ret s).pc := by
  have hs : s.stack ≠ [] := by simpa [faultOf] using h
  simp [completed, List.getLast?_eq_some_getLast hs]

end Sys2Proof.Machine
end

section
/-! SUPPORT. The invariants of the state: the canonical form of memory is unique and every step and host action keeps it
(R36), and `pc` and the return addresses stay in their range (R25). -/

namespace Sys2Proof.Machine

variable {s t : State} {i : Instr} {a : HostAction}

/-! ## Canonical memories (R36; log entry 1) -/

/-- An address with another byte than the unlisted one lies at or above the bound of a canonical memory. -/
theorem Memory.le_of_byteAt_ne {m : Memory} {lo k : Nat} (h : m.wfFrom lo = true) (hk : m.byteAt k ≠ 0) : lo ≤ k :=
  not_lt.mp fun hlt => hk (Memory.byteAt_of_lt h hlt)

theorem Memory.wfFrom_cons {lo k : Nat} {b : Byte} {m : Memory} :
    Memory.wfFrom lo ((k, b) :: m) = true ↔ lo ≤ k ∧ k < Config.memSize ∧ b ≠ 0 ∧ m.wfFrom (k + 1) = true := by
  simp only [Memory.wfFrom, Bool.and_eq_true, decide_eq_true_eq, and_assoc]
  rfl

/-- The first address that a canonical memory lists is the first with another byte than the unlisted one, so equal bytes
give equal heads, and then equal tails. -/
theorem Memory.eq_of_byteAt_eq {m m' : Memory} {lo lo' : Nat} (h : m.wfFrom lo = true) (h' : m'.wfFrom lo' = true)
    (heq : ∀ k, m.byteAt k = m'.byteAt k) : m = m' := by
  induction m generalizing m' lo lo' with
  | nil =>
    cases m' with
    | nil => rfl
    | cons c m' =>
      obtain ⟨k', b'⟩ := c
      obtain ⟨-, -, hb', -⟩ := Memory.wfFrom_cons.mp h'
      exact absurd (by simpa [Memory.byteAt_cons] using (heq k').symm) hb'
  | cons c m ih =>
    obtain ⟨k, b⟩ := c
    obtain ⟨-, hk, hb, hm⟩ := Memory.wfFrom_cons.mp h
    cases m' with
    | nil => exact absurd (by simpa [Memory.byteAt_cons] using heq k) hb
    | cons c' m' =>
      obtain ⟨k', b'⟩ := c'
      obtain ⟨-, hk', hb', hm'⟩ := Memory.wfFrom_cons.mp h'
      have hself : Memory.byteAt ((k, b) :: m) k = b := if_pos rfl
      have hself' : Memory.byteAt ((k', b') :: m') k' = b' := if_pos rfl
      have hle : k' ≤ k := Memory.le_of_byteAt_ne (Memory.wfFrom_cons.mpr ⟨le_rfl, hk', hb', hm'⟩) (by rwa [← heq, hself])
      have hge : k ≤ k' := Memory.le_of_byteAt_ne (Memory.wfFrom_cons.mpr ⟨le_rfl, hk, hb, hm⟩) (by rwa [heq, hself'])
      obtain rfl : k = k' := le_antisymm hge hle
      obtain rfl : b = b' := by rw [← hself, heq, hself']
      refine congrArg ((k, b) :: ·) (ih hm hm' fun j => ?_)
      by_cases hj : k = j
      · rw [Memory.byteAt_of_lt hm (by omega), Memory.byteAt_of_lt hm' (by omega)]
      · simpa [Memory.byteAt_cons, hj] using heq j

/-! ## Well-formed states (R36) -/

/-- On this hardware, whose stack is unbounded, a State is well formed when its memory is. -/
theorem State.wf_iff : s.wf = true ↔ s.mem.wf = true := by
  simp [State.wf, stackWithin, Config.stackDepth]

theorem completed_wf (hs : s.wf = true) (hf : faultOf i s = none) : (completed i s).wf = true := by
  rw [State.wf_iff] at hs ⊢
  rw [completed_mem]
  exact Memory.putAll_wf hs (bytesStored_fits hf)

theorem step_keeps_wf (hs : s.wf = true) (h : step s = .next t) : t.wf = true := by
  obtain ⟨r, rfl⟩ | ⟨i, -, hf, rfl⟩ := eq_recording_or_completed h
  · exact hs
  · exact completed_wf hs hf

theorem Snapshot.length_memory {p : Snapshot} (h : p.wf = true) : p.memory.length = 4096 := by
  simp only [Snapshot.wf, Bool.and_eq_true, decide_eq_true_eq] at h
  tauto

theorem hostAct_keeps_wf (hs : s.wf = true) (h : hostAct a s = .next t) : t.wf = true := by
  cases a with
  | cycle keys draw => exact step_keeps_wf (s := { s with keys := keys, draw := draw }) hs h
  | reset => cases h; rfl
  | loadCharset font =>
    cases h
    exact State.wf_iff.mpr (Memory.putAll_wf (State.wf_iff.mp hs) (.inr (by simp [Config.memSize])))
  | loadRom bytes =>
    rw [hostAct] at h
    split_ifs at h with hlen
    cases h
    simp only [Config.romMax] at hlen
    exact State.wf_iff.mpr (Memory.putAll_wf (State.wf_iff.mp hs) (.inr (by simp only [Config.romBase, Config.memSize]; omega)))
  | restore saved =>
    rw [hostAct] at h
    split_ifs at h with hsaved
    cases h
    refine State.wf_iff.mpr (Memory.ofBytes_wf ?_)
    rw [List.length_map, Snapshot.length_memory hsaved]
    exact le_rfl
  | tick | readDisplay | serialize | stop => cases h; exact hs

/-! ## Runs of host actions -/

/-- What a host action's next state has, the state after it has: where it answers no next state, nothing changes. -/
theorem afterHost_keeps {P : State → Prop} (hs : P s) (hnext : ∀ t, hostAct a s = .next t → P t) : P (afterHost s a) := by
  unfold afterHost
  split
  case h_1 t ht => exact hnext t ht
  case h_2 | h_3 => exact hs

/-- What every action of a list keeps, the whole run keeps. -/
theorem hostRun_keeps {P : State → Prop} {actions : List HostAction} (hs : P s)
    (hact : ∀ a ∈ actions, ∀ s t, P s → hostAct a s = .next t → P t) : P (hostRun s actions) :=
  List.foldlRecOn actions afterHost hs fun s hs a ha => afterHost_keeps hs fun t => hact a ha s t hs

/-! ## The range of the program counter (R25, R86) -/

theorem completed_pc_le_of_no_target (h : setsTarget i = false) (hpc : s.pc.toNat ≤ 4094) :
    (completed i s).pc.toNat ≤ 0x10FE := by
  obtain hnext | hnext := completed_pc_of_no_target (s := s) h <;> rw [hnext] <;> bv_omega

theorem completed_pc_le (hpc : s.pc.toNat ≤ 4094) (hs : s.pcBounded) (hf : faultOf i s = none) :
    (completed i s).pc.toNat ≤ 0x10FE := by
  obtain ⟨-, hstack⟩ := hs
  cases i with
  | jp nnn | call nnn => exact (zextAddr_toNat nnn).trans_le (by omega)
  | jpV0 nnn => rw [jpV0_pc_toNat]; omega
  | ret =>
    have := hstack _ (List.mem_of_getLast? (ret_pc hf))
    omega
  | _ => exact completed_pc_le_of_no_target rfl hpc

/-- Only a call adds to the stack, and what it adds is the address of the next instruction. -/
theorem mem_stack_of_mem_completed {w : Word} (hw : w ∈ (completed i s).stack) : w ∈ s.stack ∨ w = s.pc + 2 := by
  cases i with
  | call nnn => simpa [completed] using hw
  | ret => exact .inl (List.mem_of_mem_dropLast hw)
  | _ => exact .inl hw

theorem completed_pcBounded (hpc : s.pc.toNat ≤ 4094) (hs : s.pcBounded) (hf : faultOf i s = none) :
    (completed i s).pcBounded := by
  refine ⟨completed_pc_le hpc hs hf, fun w hw => ?_⟩
  obtain hw | rfl := mem_stack_of_mem_completed hw
  · exact hs.2 w hw
  · bv_omega

/-! ## The sound timer (R29) and the fault mark (R19) -/

theorem step_st (h : step s = .next t) : t.st = s.st := by
  obtain ⟨r, rfl⟩ | ⟨i, -, -, rfl⟩ := eq_recording_or_completed h
  · rfl
  · exact completed_st

theorem hostAct_keeps_st_zero (ha : ∀ p, a ≠ .restore p) (hs : s.st = 0) (h : hostAct a s = .next t) : t.st = 0 := by
  cases a with
  | cycle keys draw => exact (step_st h).trans hs
  | restore saved => exact absurd rfl (ha saved)
  | reset => cases h; rfl
  | tick => cases h; exact if_pos hs
  | loadCharset font => cases h; exact hs
  | loadRom bytes =>
    rw [hostAct] at h
    split_ifs at h
    cases h
    exact hs
  | readDisplay | serialize | stop => cases h; exact hs

theorem step_of_fault {r : FaultRecord} (h : s.fault = some r) : step s = .fault (.stopped r) := by
  simp only [step, h]

theorem hostAct_keeps_fault {r : FaultRecord} (ha : a ≠ .reset) (hs : s.fault = some r) (h : hostAct a s = .next t) :
    t.fault = some r := by
  cases a with
  | reset => exact absurd rfl ha
  | cycle keys draw => exact nomatch (step_of_fault (s := { s with keys := keys, draw := draw }) hs).symm.trans h
  | loadRom bytes | restore saved =>
    rw [hostAct] at h
    split_ifs at h
    cases h
    exact hs
  | loadCharset | tick | readDisplay | serialize | stop => cases h; exact hs

/-! ## Reset (R141) -/

theorem resetValues_reset : ResetValues State.reset where
  mem _ := rfl
  regs x := by simp [State.v, State.reset]
  i := rfl
  pc := rfl
  stack := rfl
  display := Display.cell_clear
  dt := rfl
  st := rfl
  fault := rfl

end Sys2Proof.Machine

open Sys2Proof Sys2Proof.Machine

/-- Settles O3: memory is all that well-formedness depends on here, and a store that completes lies inside memory. -/
theorem stepKeepsWellFormed : Obligations.StepKeepsWellFormed := fun _ _ => step_keeps_wf

/-- Settles O4, by induction on the host's actions: each of them keeps the State well formed. -/
theorem hostRunKeepsWellFormed : Obligations.HostRunKeepsWellFormed := fun _ _ hs =>
  hostRun_keeps (P := fun s => s.wf = true) hs fun _ _ _ _ => hostAct_keeps_wf

/-- Settles O22: an instruction that completes was fetched at 4094 or below, which bounds its next `pc` and what it pushes. -/
theorem stepKeepsPcBounded : Obligations.StepKeepsPcBounded := by
  intro s t hs h
  obtain ⟨r, rfl⟩ | ⟨i, hpc, hf, rfl⟩ := eq_recording_or_completed h
  · exact hs
  · exact completed_pcBounded hpc hs hf

/-- Settles O5, by induction on the two lists: equal bytes give equal heads, and then equal tails. -/
theorem canonicalMemoryIsExtensional : Obligations.CanonicalMemoryIsExtensional := fun _ _ =>
  Memory.eq_of_byteAt_eq

/-- Settles O17: a cycle of a stopped core answers no next state, and no other action but a reset writes the mark. -/
theorem onlyResetClearsFaultMark : Obligations.OnlyResetClearsFaultMark := fun _ _ hs =>
  ⟨step_of_fault hs,
    fun _ ha => afterHost_keeps (P := fun t => t.fault = some _) hs fun _ => hostAct_keeps_fault ha hs, rfl⟩

/-- Settles O23: an instruction that leaves no fault recorded has completed, and its next `pc` is that of its kind. -/
theorem nextPcByKind : Obligations.NextPcByKind := by
  intro i s t hpc _ h hnone
  obtain ⟨hf, rfl⟩ | ⟨c, -, rfl⟩ := eq_completed_or_faulted h
  case inr => exact nomatch hnone
  cases i with
  | jp nnn | call nnn => exact zextAddr_toNat nnn
  | jpV0 nnn => exact jpV0_pc_toNat nnn
  | ret => exact ret_pc hf
  | seImm x kk => exact skipIf_pc_toNat (by simp [BitVec.toNat_inj]) hpc
  | sneImm x kk => exact skipIf_not_pc_toNat (by simp [BitVec.toNat_inj]) hpc
  | seReg x y => exact skipIf_pc_toNat (by simp [BitVec.toNat_inj]) hpc
  | sneReg x y => exact skipIf_not_pc_toNat (by simp [BitVec.toNat_inj]) hpc
  | skp x =>
    have hk := faultOf_skp_eq_none.mp hf
    exact ⟨hk, skipIf_pc_toNat (by simp [State.keyPressed_of_lt s _ hk]) hpc⟩
  | sknp x =>
    have hk := faultOf_sknp_eq_none.mp hf
    exact ⟨hk, skipIf_not_pc_toNat (by simp [State.keyPressed_of_lt s _ hk]) hpc⟩
  | _ => exact advance_pc_toNat hpc

/-- Settles O24: an instruction takes a fault, and then only the mark changes, or it completes, and then what it writes is
in the table of R33. -/
theorem writersOfEachStateElement : Obligations.WritersOfEachStateElement := by
  intro i s t h
  obtain ⟨-, rfl⟩ | ⟨c, hc, rfl⟩ := eq_completed_or_faulted h
  · refine ⟨completed_regs, fun hB hStore a => ?_, completed_i, completed_stack, fun hCls hDrw k => ?_, completed_dt,
      fun _ => completed_fault, .inr ⟨completed_fault, fun htarget => ?_⟩, completed_st, completed_keys, completed_draw,
      completed_cycleNo⟩
    · rw [completed_mem, bytesStored_eq_nil hB hStore, Memory.putAll]
    · rw [completed_display hCls hDrw]
    · obtain hnext | hnext := completed_pc_of_no_target (s := s) htarget <;> rw [hnext] <;> bv_omega
  · refine ⟨fun _ _ => rfl, fun _ _ _ => rfl, fun _ _ _ => rfl, fun _ _ => rfl, fun _ _ _ => rfl, fun _ => rfl,
      fun hi => ?_, .inl ⟨c, rfl⟩, rfl, rfl, rfl, rfl⟩
    simp [faultOf_eq_none_of_canFault hi] at hc

/-- Settles O52, by induction on the host's actions: a tick floors at 0, and no instruction writes `ST`. -/
theorem soundTimerStaysZero : Obligations.SoundTimerStaysZero := fun _ _ hs hrestore =>
  hostRun_keeps (P := fun s => s.st = 0) hs fun _ ha _ _ =>
    hostAct_keeps_st_zero fun p hp => hrestore p (hp ▸ ha)

/-- Settles O1: the host's reset differs from the reset state only in the inputs of a cycle. -/
theorem resetLeavesSpecValues : Obligations.ResetLeavesSpecValues :=
  ⟨resetValues_reset, fun _ => ⟨_, rfl, { resetValues_reset with }⟩⟩

/-- Settles O2: the reset state lists no byte of memory, starts at 0x200 with an empty stack, and records no fault. -/
theorem resetMeetsInvariants : Obligations.ResetMeetsInvariants :=
  ⟨by decide, ⟨by decide, by simp [State.reset]⟩, rfl⟩
end

section
/-! SUPPORT. What the fetch reads: the bytes that a block store has left, and the fault where there is no word (R47, R56). -/

namespace Sys2Proof.Machine

variable {s : State} {x k : RegIdx}

/-- A block store completes exactly when its last byte lies inside memory (R112). -/
theorem faultOf_ldStore_eq_none : faultOf (.ldStore x) s = none ↔ s.i.toNat + x.val ≤ 4095 := by
  simp [faultOf, dataBytes, Config.memSize, ← Nat.add_assoc, Nat.lt_succ_iff]

/-- A block store leaves `Vk` at `I + k`, for every register of its block (R112). -/
theorem byteAt_completed_ldStore (hwf : s.mem.wf = true) (hfit : s.i.toNat + x.val ≤ 4095) (hk : k.val ≤ x.val) :
    (completed (.ldStore x) s).mem.byteAt (s.dataAddr k.val) = s.v k := by
  have hlen : k.val < (s.regBlock x).length := by rw [State.length_regBlock]; omega
  rw [completed_mem, Memory.byteAt_putAll hwf (bytesStored_fits (faultOf_ldStore_eq_none.mpr hfit)), State.dataAddr,
    bytesStored, if_pos (by omega), Nat.add_sub_cancel_left, List.getD_eq_getElem _ _ hlen, State.getElem_regBlock]

/-- A step of a running core with `pc > 4094` records FetchOutOfRange at `pc` and changes nothing else (R47). -/
theorem step_of_pc_gt (hrun : s.fault = none) (hpc : 4094 < s.pc.toNat) :
    step s = .next (s.recording ⟨.fetchOutOfRange, s.pc⟩) := by
  simp only [step, hrun, fetchAt_of_gt hpc]
  rfl

end Sys2Proof.Machine

open Sys2Proof Sys2Proof.Machine

/-- Settles O49: the store completes, so both bytes of the word are the registers that it stored there. -/
theorem storedCodeIsFetched : Obligations.StoredCodeIsFetched := by
  intro x k l s t hwf hfit hl hlx hstore
  rw [exec_eq_completed (faultOf_ldStore_eq_none.mpr hfit)] at hstore
  obtain rfl : completed (.ldStore x) s = t := by injection hstore
  have hnext : s.dataAddr k.val + 1 = s.dataAddr l.val := by simp only [State.dataAddr, hl, Nat.add_assoc]
  have hin : s.dataAddr k.val ≤ 4094 := by simp only [State.dataAddr]; omega
  rw [fetchAt_of_le hin, hnext, byteAt_completed_ldStore hwf hfit (by omega), byteAt_completed_ldStore hwf hfit hlx]

/-- Settles O13: up to 4094 the word is two bytes joined, the lower address first; above it the second byte is outside. -/
theorem fetchIsBigEndian : Obligations.FetchIsBigEndian := fun _ _ =>
  ⟨fun ha => ⟨_, fetchAt_of_le ha, wordOfBytes_toNat _ _⟩, fetchAt_of_gt⟩

/-- Settles O15: the fetch comes before everything else of the step, and it answers no word. -/
theorem fetchOutsideMemoryFaults : Obligations.FetchOutsideMemoryFaults := fun _ hrun hpc =>
  ⟨_, step_of_pc_gt hrun hpc, rfl⟩
end

section
/-! SUPPORT. The encoder and the decoder: each is the other's inverse on legal words, a legal word belongs to exactly one
row of the opcode table, and which words are illegal (R58 to R72). -/

namespace Sys2Proof

variable {op : Word} {i : Instr}

/-! ## Decode and encode agree (R60, R63) -/

theorem decode_encode (i : Instr) : decode (encode i) = .instr i := by
  cases i with
  | cls | ret => rfl
  | ldReg | orReg | andReg | xorReg | addReg | sub | shr | subn | shl => simp [encode, decode, decodeGroup8]
  | skp | sknp => simp [encode, decode, decodeGroupE]
  | ldVxDt | ldDtVx | addI | ldF | ldB | ldStore | ldLoad => simp [encode, decode, decodeGroupF]
  | _ => simp [encode, decode]

theorem decode_eq_instr_iff : decode op = .instr i ↔ encode i = op :=
  ⟨encode_of_decode, fun h => h ▸ decode_encode i⟩

/-! ## Bytes (R41, R58) -/

theorem bytesOfWord_wordOfBytes (hi lo : Byte) : bytesOfWord (wordOfBytes hi lo) = [hi, lo] := by
  have := hi.isLt; have := lo.isLt
  simp only [bytesOfWord, List.cons.injEq, and_true, ← BitVec.toNat_inj, BitVec.extractLsb'_toNat, wordOfBytes_toNat,
    Nat.shiftRight_eq_div_pow]
  omega

theorem decodeBytes_bytesOfWord_append (op : Word) (rest : List Byte) :
    decodeBytes (bytesOfWord op ++ rest) = .ok (i, rest) ↔ decode op = .instr i := by
  rw [bytesOfWord, List.cons_append, List.singleton_append, decodeBytes, wordOfBytes_bytesOfWord]
  cases decode op <;> simp

/-- A decoded byte sequence is the two bytes of its instruction's word, and the rest. -/
theorem eq_bytesOfWord_append_of_decodeBytes {bs rest : List Byte} (h : decodeBytes bs = .ok (i, rest)) :
    bs = bytesOfWord (encode i) ++ rest := by
  unfold decodeBytes at h
  split at h
  case h_1 hi lo rest' =>
    split at h <;> cases h
    next hd => rw [encode_of_decode hd, bytesOfWord_wordOfBytes, List.cons_append, List.singleton_append]
  case h_2 => cases h

/-! ## The illegal words of a group (R64 to R69) -/

theorem fieldN_eq_zero_iff : fieldN op = 0 ↔ op.toNat % 16 = 0 := by
  rw [Fin.ext_iff, fieldN_val, Fin.val_zero]

theorem decodeGroup8_eq_reject_iff :
    decodeGroup8 op = .reject (.illegalWord op) ↔ 0x8 ≤ op.toNat % 16 ∧ op.toNat % 16 ≠ 0xE := by
  rw [← fieldN_val]
  unfold decodeGroup8
  split <;> simp_all
  -- what is left is a sub-opcode that no row has
  omega

theorem decodeGroupE_eq_reject_iff : decodeGroupE op = .reject (.illegalWord op) ↔ op.toNat % 256 ∉ [0x9E, 0xA1] := by
  rw [← fieldKK_toNat]
  unfold decodeGroupE
  split <;> simp_all

theorem decodeGroupF_eq_reject_iff : decodeGroupF op = .reject (.illegalWord op) ↔
    op.toNat % 256 ∉ [0x07, 0x15, 0x1E, 0x29, 0x33, 0x55, 0x65] := by
  rw [← fieldKK_toNat]
  unfold decodeGroupF
  split <;> simp_all

/-! ## The fields that a row of the opcode table asks for, by its mask (R60) -/

section
variable {r : OpcodeRow} {a : BitVec 4}

theorem and_mask_of_holds (h : r.holds op = true) : op &&& r.mask = r.pattern := of_decide_eq_true h

theorem pattern_of_holds (hm : r.mask = 0xFFFF#16) (h : r.holds op = true) : r.pattern = op := by
  have h := and_mask_of_holds h
  rw [hm] at h
  exact h.symm.trans BitVec.and_allOnes

theorem fieldA_of_holds (hm : r.mask = 0xF000#16) (hp : r.pattern = formatA a 0) (h : r.holds op = true) :
    (fieldA op).toNat = a.toNat := by
  have h := and_mask_of_holds h
  rw [hm, hp, and_maskA] at h
  rw [← fieldA_formatA (fieldA op) 0, h, fieldA_formatA]

theorem formatXYN_of_holds {d : Fin 16} (hm : r.mask = 0xF00F#16) (hp : r.pattern = formatXYN a 0 0 d)
    (h : r.holds op = true) : formatXYN a (fieldX op) (fieldY op) d = op := by
  have h := and_mask_of_holds h
  rw [hm, hp, and_maskXY] at h
  have ha := congrArg fieldA h
  have hn := congrArg fieldN h
  rw [fieldA_formatXYN, fieldA_formatXYN] at ha
  rw [fieldN_formatXYN, fieldN_formatXYN] at hn
  rw [← ha, ← hn, formatXYN_fields]

theorem formatXK_of_holds {d : Byte} (hm : r.mask = 0xF0FF#16) (hp : r.pattern = formatXK a 0 d)
    (h : r.holds op = true) : formatXK a (fieldX op) d = op := by
  have h := and_mask_of_holds h
  rw [hm, hp, and_maskXS] at h
  have ha := congrArg fieldA h
  have hk := congrArg fieldKK h
  rw [fieldA_formatXK, fieldA_formatXK] at ha
  rw [fieldKK_formatXK, fieldKK_formatXK] at hk
  rw [← ha, ← hk, formatXK_fields]

end

/-! ## A word of a row is the word of an instruction of that row (R63, R72) -/

theorem exists_instr_of_row0to7 : ∀ r ∈ opcodeRows0to7, r.holds op = true → ∃ i, encode i = op ∧ i.row = r := by
  simp only [opcodeRows0to7, List.forall_mem_cons]
  exact ⟨fun h => ⟨.cls, pattern_of_holds rfl h, rfl⟩,
    fun h => ⟨.ret, pattern_of_holds rfl h, rfl⟩,
    fun h => ⟨.jp (fieldNNN op), formatA_eq_of_fieldA (fieldA_of_holds rfl rfl h), rfl⟩,
    fun h => ⟨.call (fieldNNN op), formatA_eq_of_fieldA (fieldA_of_holds rfl rfl h), rfl⟩,
    fun h => ⟨.seImm (fieldX op) (fieldKK op), formatXK_eq_of_fields (fieldA_of_holds rfl rfl h) rfl, rfl⟩,
    fun h => ⟨.sneImm (fieldX op) (fieldKK op), formatXK_eq_of_fields (fieldA_of_holds rfl rfl h) rfl, rfl⟩,
    fun h => ⟨.seReg (fieldX op) (fieldY op), formatXYN_of_holds rfl rfl h, rfl⟩,
    fun h => ⟨.ldImm (fieldX op) (fieldKK op), formatXK_eq_of_fields (fieldA_of_holds rfl rfl h) rfl, rfl⟩,
    fun h => ⟨.addImm (fieldX op) (fieldKK op), formatXK_eq_of_fields (fieldA_of_holds rfl rfl h) rfl, rfl⟩,
    List.forall_mem_nil _⟩

theorem exists_instr_of_row8 : ∀ r ∈ opcodeRows8, r.holds op = true → ∃ i, encode i = op ∧ i.row = r := by
  simp only [opcodeRows8, List.forall_mem_cons]
  exact ⟨fun h => ⟨.ldReg (fieldX op) (fieldY op), formatXYN_of_holds rfl rfl h, rfl⟩,
    fun h => ⟨.orReg (fieldX op) (fieldY op), formatXYN_of_holds rfl rfl h, rfl⟩,
    fun h => ⟨.andReg (fieldX op) (fieldY op), formatXYN_of_holds rfl rfl h, rfl⟩,
    fun h => ⟨.xorReg (fieldX op) (fieldY op), formatXYN_of_holds rfl rfl h, rfl⟩,
    fun h => ⟨.addReg (fieldX op) (fieldY op), formatXYN_of_holds rfl rfl h, rfl⟩,
    fun h => ⟨.sub (fieldX op) (fieldY op), formatXYN_of_holds rfl rfl h, rfl⟩,
    fun h => ⟨.shr (fieldX op) (fieldY op), formatXYN_of_holds rfl rfl h, rfl⟩,
    fun h => ⟨.subn (fieldX op) (fieldY op), formatXYN_of_holds rfl rfl h, rfl⟩,
    fun h => ⟨.shl (fieldX op) (fieldY op), formatXYN_of_holds rfl rfl h, rfl⟩,
    List.forall_mem_nil _⟩

theorem exists_instr_of_row9toF : ∀ r ∈ opcodeRows9toF, r.holds op = true → ∃ i, encode i = op ∧ i.row = r := by
  simp only [opcodeRows9toF, List.forall_mem_cons]
  exact ⟨fun h => ⟨.sneReg (fieldX op) (fieldY op), formatXYN_of_holds rfl rfl h, rfl⟩,
    fun h => ⟨.ldI (fieldNNN op), formatA_eq_of_fieldA (fieldA_of_holds rfl rfl h), rfl⟩,
    fun h => ⟨.jpV0 (fieldNNN op), formatA_eq_of_fieldA (fieldA_of_holds rfl rfl h), rfl⟩,
    fun h => ⟨.rnd (fieldX op) (fieldKK op), formatXK_eq_of_fields (fieldA_of_holds rfl rfl h) rfl, rfl⟩,
    fun h => ⟨.drw (fieldX op) (fieldY op) (fieldN op), formatXYN_eq_of_fields (fieldA_of_holds rfl rfl h) rfl, rfl⟩,
    fun h => ⟨.skp (fieldX op), formatXK_of_holds rfl rfl h, rfl⟩,
    fun h => ⟨.sknp (fieldX op), formatXK_of_holds rfl rfl h, rfl⟩,
    fun h => ⟨.ldVxDt (fieldX op), formatXK_of_holds rfl rfl h, rfl⟩,
    fun h => ⟨.ldDtVx (fieldX op), formatXK_of_holds rfl rfl h, rfl⟩,
    fun h => ⟨.addI (fieldX op), formatXK_of_holds rfl rfl h, rfl⟩,
    fun h => ⟨.ldF (fieldX op), formatXK_of_holds rfl rfl h, rfl⟩,
    fun h => ⟨.ldB (fieldX op), formatXK_of_holds rfl rfl h, rfl⟩,
    fun h => ⟨.ldStore (fieldX op), formatXK_of_holds rfl rfl h, rfl⟩,
    fun h => ⟨.ldLoad (fieldX op), formatXK_of_holds rfl rfl h, rfl⟩,
    List.forall_mem_nil _⟩

/-- A word that belongs to a row of the table decodes to an instruction of that row. -/
theorem decode_of_row {r : OpcodeRow} (hr : r ∈ opcodeTable) (h : r.holds op = true) :
    ∃ i, decode op = .instr i ∧ i.row = r := by
  simp only [decode_eq_instr_iff]
  obtain (hr | hr) | hr := Laws.TableRow.mem_opcodeTable.mp hr
  · exact exists_instr_of_row0to7 r hr h
  · exact exists_instr_of_row8 r hr h
  · exact exists_instr_of_row9toF r hr h

theorem row_unique {r r' : OpcodeRow} (hr : r ∈ opcodeTable) (h : r.holds op = true) (hr' : r' ∈ opcodeTable)
    (h' : r'.holds op = true) : r = r' := by
  obtain ⟨i, hi, rfl⟩ := decode_of_row hr h
  obtain ⟨i', hi', rfl⟩ := decode_of_row hr' h'
  obtain rfl : i = i' := by simpa [hi] using hi'
  rfl

theorem opcodeTable_nodup : opcodeTable.Nodup := List.Nodup.of_map OpcodeRow.pattern (by decide)

/-- The lemmas of `Laws/PerInstr.lean`, for every instruction. -/
theorem tableRow_statement : ∀ i : Instr, Laws.TableRow.Statement i :=
  open Laws.TableRow in
  @Instr.rec Statement cls ret jp call seImm sneImm seReg ldImm addImm ldReg orReg andReg xorReg addReg sub shr subn shl
    sneReg ldI jpV0 rnd drw skp sknp ldVxDt ldDtVx addI ldF ldB ldStore ldLoad

/-! ## Assembly lines (R79) -/

/-- The instruction without the one operand that its assembly line does not write, the ignored `y` of `SHR` and `SHL`
(R79); `Machine.exec_withoutIgnored` ties it to the model. -/
def Instr.withoutIgnored : Instr → Instr
  | .shr x _ => .shr x 0
  | .shl x _ => .shl x 0
  | i => i

/-- An instruction's assembly line read back; `readLine_of_instr` ties it to the model. Operands of a shape that only one
instruction has name it by themselves; the mnemonic tells the others apart. -/
def readLine (mnemonic : String) : List Operand → Option Instr
  | [.reg x, .reg y, .nibble n] => some (.drw (Fin.ofNat 16 x) (Fin.ofNat 16 y) (Fin.ofNat 16 n))
  | [.named .iReg, .addr nnn] => some (.ldI (BitVec.ofNat 12 nnn))
  | [.named .v0, .addr nnn] => some (.jpV0 (BitVec.ofNat 12 nnn))
  | [.reg x, .named .delay] => some (.ldVxDt (Fin.ofNat 16 x))
  | [.named .delay, .reg x] => some (.ldDtVx (Fin.ofNat 16 x))
  | [.named .iReg, .reg x] => some (.addI (Fin.ofNat 16 x))
  | [.named .font, .reg x] => some (.ldF (Fin.ofNat 16 x))
  | [.named .bcd, .reg x] => some (.ldB (Fin.ofNat 16 x))
  | [.named .iMem, .reg x] => some (.ldStore (Fin.ofNat 16 x))
  | [.reg x, .named .iMem] => some (.ldLoad (Fin.ofNat 16 x))
  | [] =>
    match mnemonic with
    | "CLS" => some .cls
    | "RET" => some .ret
    | _ => none
  | [.addr nnn] =>
    match mnemonic with
    | "JP" => some (.jp (BitVec.ofNat 12 nnn))
    | "CALL" => some (.call (BitVec.ofNat 12 nnn))
    | _ => none
  | [.reg x] =>
    match mnemonic with
    | "SHR" => some (.shr (Fin.ofNat 16 x) 0)
    | "SHL" => some (.shl (Fin.ofNat 16 x) 0)
    | "SKP" => some (.skp (Fin.ofNat 16 x))
    | "SKNP" => some (.sknp (Fin.ofNat 16 x))
    | _ => none
  | [.reg x, .byte kk] =>
    match mnemonic with
    | "SE" => some (.seImm (Fin.ofNat 16 x) (BitVec.ofNat 8 kk))
    | "SNE" => some (.sneImm (Fin.ofNat 16 x) (BitVec.ofNat 8 kk))
    | "LD" => some (.ldImm (Fin.ofNat 16 x) (BitVec.ofNat 8 kk))
    | "ADD" => some (.addImm (Fin.ofNat 16 x) (BitVec.ofNat 8 kk))
    | "RND" => some (.rnd (Fin.ofNat 16 x) (BitVec.ofNat 8 kk))
    | _ => none
  | [.reg x, .reg y] =>
    match mnemonic with
    | "SE" => some (.seReg (Fin.ofNat 16 x) (Fin.ofNat 16 y))
    | "SNE" => some (.sneReg (Fin.ofNat 16 x) (Fin.ofNat 16 y))
    | "LD" => some (.ldReg (Fin.ofNat 16 x) (Fin.ofNat 16 y))
    | "OR" => some (.orReg (Fin.ofNat 16 x) (Fin.ofNat 16 y))
    | "AND" => some (.andReg (Fin.ofNat 16 x) (Fin.ofNat 16 y))
    | "XOR" => some (.xorReg (Fin.ofNat 16 x) (Fin.ofNat 16 y))
    | "ADD" => some (.addReg (Fin.ofNat 16 x) (Fin.ofNat 16 y))
    | "SUB" => some (.sub (Fin.ofNat 16 x) (Fin.ofNat 16 y))
    | "SUBN" => some (.subn (Fin.ofNat 16 x) (Fin.ofNat 16 y))
    | _ => none
  | _ => none

theorem readLine_of_instr (i : Instr) : readLine i.mnemonic i.operands = some i.withoutIgnored := by
  cases i <;> simp [Instr.mnemonic, Instr.operands, readLine, Instr.withoutIgnored]

theorem decode2_of_instr (h : decode op = .instr i) : decode2 op = .line i.mnemonic i.operands := by
  rw [decode2, h]

/-- Legal words of one assembly line differ at most in an operand that the line does not write. -/
theorem withoutIgnored_eq_of_decode2_eq {op' : Word} {i' : Instr} (h : decode op = .instr i) (h' : decode op' = .instr i')
    (hline : decode2 op = decode2 op') : i.withoutIgnored = i'.withoutIgnored := by
  rw [decode2_of_instr h, decode2_of_instr h'] at hline
  obtain ⟨hmnemonic, hoperands⟩ := Disasm.line.inj hline
  have hread := readLine_of_instr i
  rw [hmnemonic, hoperands, readLine_of_instr] at hread
  exact (Option.some.inj hread).symm

end Sys2Proof

open Sys2Proof

/-- Settles O7, by cases on the instruction: each field of a format reads the operand that the format put there. -/
theorem decodeOfEncodeIsIdentity : Obligations.DecodeOfEncodeIsIdentity := decode_encode

/-- Settles O8: the fields that the decoder reads and the ones that it selects by make up the whole word. -/
theorem encodeOfDecodeIsIdentity : Obligations.EncodeOfDecodeIsIdentity := fun _ _ => encode_of_decode

/-- Settles O9: a row that a word matches is the row of the one instruction that the word decodes to. -/
theorem legalExactlyWhenOneRowMatches : Obligations.LegalExactlyWhenOneRowMatches := by
  refine ⟨fun op => ?_, fun op => ⟨?_, ?_⟩, fun i => ?_⟩
  · rw [← List.toFinset_card_of_nodup (opcodeTable_nodup.filter _), Finset.card_le_one]
    simp only [List.mem_toFinset, List.mem_filter]
    rintro r ⟨hr, h⟩ r' ⟨hr', h'⟩
    exact row_unique hr h hr' h'
  · rintro ⟨i, hi⟩
    obtain ⟨-, hrow, hholds⟩ := tableRow_statement i
    exact ⟨i.row, hrow, encode_of_decode hi ▸ hholds⟩
  · rintro ⟨r, hr, h⟩
    obtain ⟨i, hi, -⟩ := decode_of_row hr h
    exact ⟨i, hi⟩
  · obtain ⟨hwf, -, -⟩ := tableRow_statement i
    exact ⟨⟨i, decode_encode i⟩, hwf⟩

/-- Settles O10, by cases on the group: the number of a word gives its group and its sub-opcode. -/
theorem illegalWordsByGroup : Obligations.IllegalWordsByGroup := by
  intro op
  simp only [← fieldA_toNat]
  unfold decode
  split
  case h_1 ha =>
    rw [ha]
    split_ifs with hcls hret <;> simp_all [← BitVec.toNat_inj]
  case h_6 ha | h_10 ha =>
    rw [ha]
    split_ifs with hn <;> rw [fieldN_eq_zero_iff] at hn <;> simp [hn]
  case h_9 ha => rw [ha, decodeGroup8_eq_reject_iff]; simp
  case h_15 ha => rw [ha, decodeGroupE_eq_reject_iff]; simp
  case h_16 ha => rw [ha, decodeGroupF_eq_reject_iff]; simp
  case h_17 =>
    -- a group is below 16, and each of the sixteen has a case of its own
    have := (fieldA op).isLt
    grind
  -- the other groups have no illegal word
  all_goals next ha => rw [ha]; simp

/-- Settles O11: two bytes are a word and a word is two bytes, so the bytes decode as the word does. -/
theorem bytesDecodeTwoAtATime : Obligations.BytesDecodeTwoAtATime :=
  ⟨fun i rest => (decodeBytes_bytesOfWord_append _ rest).mpr (decode_encode i),
    fun _ _ _ => eq_bytesOfWord_append_of_decodeBytes⟩

/-- Settles O6: the words are closed, so the decoder computes. -/
theorem decodeOfWrittenWords : Obligations.DecodeOfWrittenWords := by
  unfold Obligations.DecodeOfWrittenWords
  decide
end

section
/-! SUPPORT. What an instruction's meaning depends on: not on an operand that is encoded and ignored (R104, R106), and on
an input of the cycle only where R78 says so. -/

namespace Sys2Proof.Machine

variable {s : State} {op : Word} {i : Instr} {c : FaultCause}

theorem exec_withoutIgnored : exec i.withoutIgnored s = exec i s := by cases i <;> rfl

/-- An instruction that `faultOf` names a fault for takes it. -/
theorem exec_eq_takeFault (h : faultOf i s = some c) : exec i s = takeFault c s := by
  simpa [h] using exec_outcome i s

theorem exists_exec_eq_next (i : Instr) (s : State) : ∃ t, exec i s = .next t := by
  cases h : faultOf i s with
  | none => exact ⟨_, exec_eq_completed h⟩
  | some c => exact ⟨_, exec_eq_takeFault h⟩

theorem step_of_instr (hrun : s.fault = none) (hop : fetchAt s.mem s.pc.toNat = some op) (hd : decode op = .instr i) :
    step s = finishCycle (exec i s) := by
  simp only [step, hrun, hop, hd]

/-! ## The inputs of a cycle (R78) -/

theorem completed_with_keys (hSkp : ∀ x, i ≠ .skp x) (hSknp : ∀ x, i ≠ .sknp x) (keys : Keys) :
    completed i { s with keys := keys } = { completed i s with keys := keys } := by
  cases i with
  | skp x => exact absurd rfl (hSkp x)
  | sknp x => exact absurd rfl (hSknp x)
  | _ => rfl

theorem completed_with_draw (hRnd : ∀ x kk, i ≠ .rnd x kk) (draw : Byte) :
    completed i { s with draw := draw } = { completed i s with draw := draw } := by
  cases i with
  | rnd x kk => exact absurd rfl (hRnd x kk)
  | _ => rfl

end Sys2Proof.Machine

open Sys2Proof Sys2Proof.Machine

/-- Settles O12: words that `decode2` names alike differ at most in an ignored `y`, which no meaning reads. -/
theorem disassemblyNamesTheSameInstruction : Obligations.DisassemblyNamesTheSameInstruction := by
  refine ⟨fun op => ?_, fun op op' i i' h h' hline s => ?_⟩
  · rw [decode2]
    cases decode op <;> simp
  · calc exec i s = exec i.withoutIgnored s := exec_withoutIgnored.symm
      _ = exec i'.withoutIgnored s := by rw [withoutIgnored_eq_of_decode2_eq h h' hline]
      _ = exec i' s := exec_withoutIgnored

/-- Settles O21: no fault depends on an input of the cycle, and of what completes only the named instructions read one. -/
theorem inputsReadOnlyByKeySkipsAndRandom : Obligations.InputsReadOnlyByKeySkipsAndRandom := by
  intro i s t h
  obtain ⟨hf, rfl⟩ | ⟨c, hf, rfl⟩ := eq_completed_or_faulted h
  · refine ⟨fun hSkp hSknp keys => ?_, fun hRnd draw => ?_⟩
    · rw [← completed_with_keys hSkp hSknp]
      exact exec_eq_completed hf
    · rw [← completed_with_draw hRnd]
      exact exec_eq_completed hf
  · exact ⟨fun _ _ _ => exec_eq_takeFault hf, fun _ _ => exec_eq_takeFault hf⟩

/-- Settles O14: fetch and decode answer, so the step is the instruction's `exec`, which always answers a next state. -/
theorem stepRunsDecodedInstruction : Obligations.StepRunsDecodedInstruction := by
  intro s op i hrun hop hd
  obtain ⟨t, ht⟩ := exists_exec_eq_next i s
  exact ⟨t, ht, by rw [step_of_instr hrun hop hd, ht]; rfl⟩
end

section
/-! SUPPORT. The four jumps: the state that each of them leaves (R83 to R87), and what a jump to its own address leaves
when the host goes on with cycles, ticks and looks (R131, R137). -/

namespace Sys2Proof.Machine

variable {s t u : State} {nnn : Addr12}

/-! ## Returns and calls (R84, R86) -/

theorem exec_ret_of_stack {st : List Word} {w : Word} (h : s.stack = st ++ [w]) :
    exec .ret s = .next { s with pc := w, stack := st } := by
  have hf : faultOf .ret s = none := by simp [faultOf, h]
  rw [exec_eq_completed hf]
  simp [completed, h]

theorem exec_call (nnn : Addr12) (s : State) :
    exec (.call nnn) s = .next { s with pc := zextAddr nnn, stack := s.stack ++ [s.pc + 2] } :=
  exec_eq_completed (faultOf_eq_none_of_canFault rfl)

@[simp] theorem stackFull_some {d : Nat} {stack : List Word} : stackFull (some d) stack = true ↔ d ≤ stack.length :=
  decide_eq_true_iff

theorem callWithDepth_of_room {d : Nat} (h : s.stack.length < d) : callWithDepth (some d) nnn s = exec (.call nnn) s := by
  obtain ⟨-, hcall⟩ | ⟨hfull, -⟩ := callWithDepth_cases (some d) nnn s
  · rw [hcall, exec_call]
  · exact absurd (stackFull_some.mp hfull) (not_le.mpr h)

theorem callWithDepth_of_full {d : Nat} (h : d ≤ s.stack.length) :
    callWithDepth (some d) nnn s = takeFault .stackOverflow s := by
  obtain ⟨hroom, -⟩ | ⟨-, hcall⟩ := callWithDepth_cases (some d) nnn s
  · exact absurd (stackFull_some.mpr h) (by simp [hroom])
  · exact hcall

/-! ## Jumps (R85, R87) -/

/-- The frame of an instruction that writes `pc` alone. -/
theorem onlyRegs_with_pc (s : State) (pc : Word) : OnlyRegs [] s { s with pc := pc } where
  regs _ _ := rfl
  i := rfl
  mem _ := rfl
  display _ := rfl
  rest := ⟨rfl, rfl, rfl, rfl, rfl, rfl, rfl⟩

theorem exec_jp_self (h : s.pc.toNat = nnn.toNat) : exec (.jp nnn) s = .next s := by
  have hpc : zextAddr nnn = s.pc := BitVec.eq_of_toNat_eq ((zextAddr_toNat nnn).trans h.symm)
  rw [exec_eq_completed (faultOf_eq_none_of_canFault rfl), completed, hpc]

/-! ## A jump to its own address, under the host (R85, R131, R137) -/

/-- The core runs, and the instruction at `pc` is a jump to `pc`. -/
structure State.SelfJumps (nnn : Addr12) (s : State) : Prop where
  running : s.fault = none
  pc : s.pc.toNat = nnn.toNat
  word : fetchAt s.mem s.pc.toNat = some (encode (.jp nnn))

/-- The host calls a cycle, ticks the timers, or only looks. -/
def HostAction.Waits (a : HostAction) : Prop :=
  (∃ keys draw, a = .cycle keys draw) ∨ a = .tick ∨ a = .readDisplay ∨ a = .serialize ∨ a = .stop

/-- The timers have gone down by `k`, floored at 0; beside them only the inputs of the cycle may differ. -/
structure TickedBy (k : Nat) (s t : State) : Prop where
  dt : t.dt.toNat = s.dt.toNat - k
  st : t.st.toNat = s.st.toNat - k
  rest : t = { s with dt := t.dt, st := t.st, keys := t.keys, draw := t.draw, cycleNo := t.cycleNo }

theorem TickedBy.refl (s : State) : TickedBy 0 s s := ⟨rfl, rfl, rfl⟩

theorem TickedBy.trans {j k : Nat} (hst : TickedBy j s t) (htu : TickedBy k t u) : TickedBy (j + k) s u where
  dt := by rw [htu.dt, hst.dt, Nat.sub_sub]
  st := by rw [htu.st, hst.st, Nat.sub_sub]
  rest := htu.rest.trans (by rw [hst.rest])

theorem State.SelfJumps.of_tickedBy {k : Nat} (hs : s.SelfJumps nnn) (h : TickedBy k s t) : t.SelfJumps nnn := by
  rw [h.rest]
  exact ⟨hs.running, hs.pc, hs.word⟩

theorem toNat_tick (b : Byte) : (if b = 0 then 0 else b - 1).toNat = b.toNat - 1 := by
  split_ifs with h
  · rw [h]; rfl
  · bv_omega

theorem step_of_selfJumps (hs : s.SelfJumps nnn) : step s = .next s.freshInputs := by
  rw [step_of_instr hs.running hs.word (decode_encode _), exec_jp_self hs.pc, finishCycle]

theorem afterHost_tickedBy {a : HostAction} (hs : s.SelfJumps nnn) (ha : a.Waits) :
    TickedBy (if a == .tick then 1 else 0) s (afterHost s a) := by
  obtain ⟨keys, draw, rfl⟩ | rfl | rfl | rfl | rfl := ha
  · have hinputs : ({ s with keys := keys, draw := draw } : State).SelfJumps nnn := ⟨hs.running, hs.pc, hs.word⟩
    rw [afterHost, hostAct, step_of_selfJumps hinputs]
    exact ⟨rfl, rfl, rfl⟩
  · exact ⟨toNat_tick s.dt, toNat_tick s.st, rfl⟩
  all_goals exact TickedBy.refl s

theorem hostRun_tickedBy {actions : List HostAction} (hs : s.SelfJumps nnn) (hwait : ∀ a ∈ actions, a.Waits) :
    TickedBy (actions.count .tick) s (hostRun s actions) := by
  induction actions generalizing s with
  | nil => exact TickedBy.refl s
  | cons a actions ih =>
    obtain ⟨ha, hactions⟩ := List.forall_mem_cons.mp hwait
    have hfirst := afterHost_tickedBy hs ha
    rw [List.count_cons, Nat.add_comm, hostRun_cons]
    exact hfirst.trans (ih (hs.of_tickedBy hfirst) hactions)

end Sys2Proof.Machine

open Sys2Proof Sys2Proof.Machine

/-- Settles O27, by induction on the host's actions: each of them leaves the jump to its own address at `pc`. -/
theorem selfJumpHoldsState : Obligations.SelfJumpHoldsState := by
  rintro nnn s _ actions hrun hpc hop hwait rfl
  obtain ⟨hdt, hst, hrest⟩ := hostRun_tickedBy ⟨hrun, hpc, hop⟩ hwait
  exact ⟨hdt, hst, hrest⟩

/-- Settles O29: the return pops exactly the entry that the call has pushed. -/
theorem retAfterCallResumes : Obligations.RetAfterCallResumes := by
  intro nnn s t u hcall hret
  rw [exec_call] at hcall
  cases hcall
  rw [exec_ret_of_stack rfl] at hret
  cases hret
  rfl

/-- Settles O25: with an entry on the stack the return completes, and without one it takes its fault. -/
theorem retPopsReturnAddress : Obligations.RetPopsReturnAddress := fun _ =>
  ⟨fun _ _ hstack => ⟨_, exec_ret_of_stack hstack, rfl, fun _ => rfl⟩,
    fun hempty => ⟨_, exec_eq_takeFault (if_pos hempty), rfl⟩⟩

/-- Settles O26: the jump completes in every state, and it writes `pc` alone. -/
theorem jpSetsPc : Obligations.JpSetsPc := fun nnn s =>
  ⟨_, exec_eq_completed (faultOf_eq_none_of_canFault rfl), zextAddr_toNat nnn, onlyRegs_with_pc s _⟩

/-- Settles O28: an unbounded stack is never full, and one of depth `d` is full from `d` entries on. -/
theorem callPushesReturnAddress : Obligations.CallPushesReturnAddress := fun nnn s =>
  ⟨⟨_, exec_call nnn s, zextAddr_toNat nnn, rfl, rfl, fun _ => rfl⟩, advance_pc_toNat,
    fun _ => callWithDepth_of_room, fun _ hd => ⟨_, callWithDepth_of_full hd.ge, rfl⟩⟩

/-- Settles O30: the sum of a byte and a 12-bit address fits 16 bits, so nothing is cut off. -/
theorem jpV0AddsUnmasked : Obligations.JpV0AddsUnmasked := fun nnn s =>
  ⟨_, exec_eq_completed (faultOf_eq_none_of_canFault rfl), jpV0_pc_toNat nnn, onlyRegs_with_pc s _⟩
end

section
/-! SUPPORT. The six skips: each of them leaves `skipIf` of its condition (R88), so one lemma gives the next `pc` and the
frame of all of them; and the words of the two register skips with a sub-opcode that no row has (R66). -/

namespace Sys2Proof.Machine

variable {s : State} {i : Instr} {c : Bool} {p : Prop} [Decidable p]

/-- An instruction that completes as a skip goes one word further exactly on its condition, and writes `pc` alone. -/
theorem exec_skips_of_skipIf (hf : faultOf i s = none) (hskip : completed i s = s.skipIf c) (hc : c = true ↔ p) :
    ∃ t, exec i s = .next t ∧ t.pc = s.pc + (if p then 4 else 2) ∧ OnlyRegs [] s t := by
  refine ⟨s.skipIf c, hskip ▸ exec_eq_completed hf, ?_, onlyRegs_with_pc s _⟩
  simp only [State.skipIf_pc, hc]

/-- The same for a skip on the negated condition. -/
theorem exec_skips_unless_of_skipIf (hf : faultOf i s = none) (hskip : completed i s = s.skipIf c)
    (hc : c = true ↔ ¬ p) :
    ∃ t, exec i s = .next t ∧ t.pc = s.pc + (if p then 2 else 4) ∧ OnlyRegs [] s t := by
  simpa only [ite_not] using exec_skips_of_skipIf hf hskip hc

/-- Groups 5 and 9 have no row with a nonzero sub-opcode (R66). -/
theorem decode_register_skip_of_ne_zero {a : BitVec 4} {x y : RegIdx} {d : Fin 16} (ha : a = 0x5 ∨ a = 0x9)
    (hd : d ≠ 0) : decode (formatXYN a x y d) = .reject (.illegalWord (formatXYN a x y d)) := by
  obtain rfl | rfl := ha <;> simp [decode, hd]

end Sys2Proof.Machine

open Sys2Proof Sys2Proof.Machine

/-- Settles O31: neither skip can fault, and bytes are equal exactly when their numbers are. -/
theorem immediateSkips : Obligations.ImmediateSkips := fun _ _ _ =>
  ⟨exec_skips_of_skipIf (faultOf_eq_none_of_canFault rfl) rfl (by simp [BitVec.toNat_inj]),
    exec_skips_unless_of_skipIf (faultOf_eq_none_of_canFault rfl) rfl (by simp [BitVec.toNat_inj])⟩

/-- Settles O32: as with an immediate, and a nonzero `d` fails the one test that groups 5 and 9 have. -/
theorem registerSkips : Obligations.RegisterSkips := fun _ _ _ =>
  ⟨exec_skips_of_skipIf (faultOf_eq_none_of_canFault rfl) rfl (by simp [BitVec.toNat_inj]),
    exec_skips_unless_of_skipIf (faultOf_eq_none_of_canFault rfl) rfl (by simp [BitVec.toNat_inj]),
    fun _ hd => ⟨decode_register_skip_of_ne_zero (.inl rfl) hd, decode_register_skip_of_ne_zero (.inr rfl) hd⟩⟩

/-- Settles O33: a number below 16 has a key in the snapshot, and for any other the fault of R93 stands. -/
theorem keySkips : Obligations.KeySkips := by
  refine fun x s => ⟨fun hk => ?_, fun hk => ?_⟩
  · have hkey := State.keyPressed_of_lt s _ hk
    exact ⟨exec_skips_of_skipIf (faultOf_skp_eq_none.mpr hk) rfl (by simp [hkey]),
      exec_skips_unless_of_skipIf (faultOf_sknp_eq_none.mpr hk) rfl (by simp [hkey])⟩
  · exact ⟨⟨_, exec_eq_takeFault (if_pos hk), rfl⟩, ⟨_, exec_eq_takeFault (if_pos hk), rfl⟩⟩
end

section
/-! SUPPORT. The register and arithmetic-logic instructions: each of them leaves one register write, or one followed by the
flag, and the next `pc` (R95, R16), so one lemma for each form gives what it wrote and its frame; and the flags as numbers. -/

namespace Sys2Proof.Machine

variable {s : State} {i : Instr} {x : RegIdx} {b f : Byte}

/-! ## The flags as numbers (R102 to R106) -/

theorem flagByte_toNat (c : Bool) : (flagByte c).toNat = c.toNat := by cases c <;> rfl

theorem carryFlag_toNat (a b : Byte) : (carryFlag a b).toNat = if a.toNat + b.toNat > 255 then 1 else 0 := by
  rw [carryFlag, flagByte_toNat, Bool.toNat, Bool.cond_decide]

theorem greaterFlag_toNat (a b : Byte) : (greaterFlag a b).toNat = if a.toNat > b.toNat then 1 else 0 := by
  rw [greaterFlag, flagByte_toNat, Bool.toNat, Bool.cond_decide]

theorem lowBitFlag_toNat (a : Byte) : (lowBitFlag a).toNat = a.toNat % 2 := by
  rw [lowBitFlag, flagByte_toNat, BitVec.getLsbD, Nat.toNat_testBit, pow_zero, Nat.div_one]

theorem highBitFlag_toNat (a : Byte) : (highBitFlag a).toNat = a.toNat / 128 := by
  rw [highBitFlag, flagByte_toNat, BitVec.getLsbD, Nat.toNat_testBit]
  exact Nat.mod_eq_of_lt (Nat.div_lt_of_lt_mul a.isLt)

/-! ## The results as numbers (R95) -/

theorem toNat_sub_mod (a b : Byte) : (a - b).toNat = (a.toNat + 256 - b.toNat) % 256 := by bv_omega

theorem toNat_ushiftRight_one (a : Byte) : (a >>> 1).toNat = a.toNat / 2 := by
  rw [BitVec.toNat_ushiftRight, Nat.shiftRight_eq_div_pow, pow_one]

theorem toNat_shiftLeft_one (a : Byte) : (a <<< 1).toNat = 2 * a.toNat % 256 := by
  rw [BitVec.toNat_shiftLeft, Nat.shiftLeft_eq, pow_one, Nat.mul_comm]

/-! ## What the two forms write and leave (R16, R33) -/

/-- The frame of an instruction that writes registers and `pc` alone. -/
theorem onlyRegs_with_regs_pc {xs : List RegIdx} {regs : Vector Byte 16} {pc : Word}
    (h : RegsSameExcept xs s { s with regs := regs, pc := pc }) : OnlyRegs xs s { s with regs := regs, pc := pc } where
  regs := h
  i := rfl
  mem _ := rfl
  display _ := rfl
  rest := ⟨rfl, rfl, rfl, rfl, rfl, rfl, rfl⟩

/-- An instruction that completes as one register write writes that register and `pc` alone, `VF` included only as `x`. -/
theorem exec_writes_of_setV (hi : canFault i = false) (hset : completed i s = (s.setV x b).advance) :
    ∃ t, exec i s = .next t ∧ t.v x = b ∧ t.pc = s.pc + 2 ∧ OnlyRegs [x] s t := by
  refine ⟨(s.setV x b).advance, hset ▸ exec_eq_completed (faultOf_eq_none_of_canFault hi), ?_, rfl,
    onlyRegs_with_regs_pc fun j hj => ?_⟩
  · exact (State.v_setV s x x b).trans (if_pos rfl)
  · exact (State.v_setV s x j b).trans (if_neg (mt List.mem_singleton.mpr hj))

/-- The same for a byte that is known bit by bit. -/
theorem exec_writes_bits_of_setV {bit : Nat → Bool} (hi : canFault i = false)
    (hset : completed i s = (s.setV x b).advance) (hb : ∀ k, b.getLsbD k = bit k) :
    ∃ t, exec i s = .next t ∧ (∀ k, k < 8 → (t.v x).getLsbD k = bit k) ∧ t.pc = s.pc + 2 ∧ OnlyRegs [x] s t := by
  obtain ⟨t, ht, rfl, hpc, hframe⟩ := exec_writes_of_setV hi hset
  exact ⟨t, ht, fun k _ => hb k, hpc, hframe⟩

/-- An instruction that completes as a result and a flag writes the flag last, so the flag is in `VF` for every `x`. -/
theorem exec_writes_of_setVFlag {n m : Nat} (hi : canFault i = false)
    (hset : completed i s = (s.setVFlag x b f).advance) (hb : b.toNat = n) (hf : f.toNat = m) :
    ∃ t, exec i s = .next t ∧ (x ≠ regF → (t.v x).toNat = n) ∧ (t.v regF).toNat = m ∧ t.pc = s.pc + 2 ∧
      OnlyRegs [x, regF] s t := by
  refine ⟨(s.setVFlag x b f).advance, hset ▸ exec_eq_completed (faultOf_eq_none_of_canFault hi), fun hx => ?_, ?_, rfl,
    onlyRegs_with_regs_pc fun j hj => ?_⟩
  · simp [hx, hb]
  · simp [hf]
  · have ⟨hjx, hjf⟩ : j ≠ x ∧ j ≠ regF := by simpa using hj
    exact (State.v_setVFlag s x j b f).trans (by rw [if_neg hjf, if_neg hjx])

end Sys2Proof.Machine

open Sys2Proof Sys2Proof.Machine

/-- Settles O34: each load is one register write. -/
theorem registerLoads : Obligations.RegisterLoads := fun _ _ _ _ =>
  ⟨exec_writes_of_setV rfl rfl, exec_writes_of_setV rfl rfl⟩

/-- Settles O35: the sum is the one register write. -/
theorem addImmediateWritesNoFlag : Obligations.AddImmediateWritesNoFlag := by
  intro x kk s
  obtain ⟨t, ht, hv, hpc, hframe⟩ := exec_writes_of_setV (i := .addImm x kk) (s := s) rfl rfl
  exact ⟨t, ht, by rw [hv, BitVec.toNat_add], hpc, hframe⟩

/-- Settles O36: the result is the one register write, and each operation acts bit by bit. -/
theorem logicWritesNoFlag : Obligations.LogicWritesNoFlag := fun _ _ _ =>
  ⟨exec_writes_bits_of_setV rfl rfl fun _ => BitVec.getLsbD_or,
    exec_writes_bits_of_setV rfl rfl fun _ => BitVec.getLsbD_and,
    exec_writes_bits_of_setV rfl rfl fun _ => BitVec.getLsbD_xor⟩

/-- Settles O37: the sum and its carry are a result and a flag. -/
theorem addRegisterCarry : Obligations.AddRegisterCarry := fun _ _ _ =>
  exec_writes_of_setVFlag rfl rfl (BitVec.toNat_add _ _) (carryFlag_toNat _ _)

/-- Settles O38: the difference and the strict comparison are a result and a flag. -/
theorem subStrictFlag : Obligations.SubStrictFlag := fun _ _ _ =>
  exec_writes_of_setVFlag rfl rfl (toNat_sub_mod _ _) (greaterFlag_toNat _ _)

/-- Settles O39: as `SUB` with its operands exchanged. -/
theorem subnStrictFlag : Obligations.SubnStrictFlag := fun _ _ _ =>
  exec_writes_of_setVFlag rfl rfl (toNat_sub_mod _ _) (greaterFlag_toNat _ _)

/-- Settles O40: the half and the old bit 0 are a result and a flag, and the meaning does not read `y`. -/
theorem shrShiftsOutLowBit : Obligations.ShrShiftsOutLowBit := by
  intro x y s
  obtain ⟨t, ht, hres, hflag, hpc, hframe⟩ :=
    exec_writes_of_setVFlag (i := .shr x y) (s := s) rfl rfl (toNat_ushiftRight_one _) (lowBitFlag_toNat _)
  exact ⟨t, ht, hres, hflag, hpc, hframe, fun _ => ht⟩

/-- Settles O41: the double and the old bit 7 are a result and a flag, and the meaning does not read `y`. -/
theorem shlShiftsOutHighBit : Obligations.ShlShiftsOutHighBit := by
  intro x y s
  obtain ⟨t, ht, hres, hflag, hpc, hframe⟩ :=
    exec_writes_of_setVFlag (i := .shl x y) (s := s) rfl rfl (toNat_shiftLeft_one _) (highBitFlag_toNat _)
  exact ⟨t, ht, hres, hflag, hpc, hframe, fun _ => ht⟩

/-- Settles O42: the masked draw is the one register write. -/
theorem rndMasksTheDraw : Obligations.RndMasksTheDraw := fun _ _ _ =>
  exec_writes_bits_of_setV rfl rfl fun _ => BitVec.getLsbD_and
end

section
/-! SUPPORT. The index register and the accesses through `I`: the byte that each address holds after a store, the byte
that each register holds after a block load, and the one fault of a block that leaves memory (R48, R49, R108 to R113). -/

namespace Sys2Proof.Machine

variable {s : State} {i : Instr} {x : RegIdx}

/-! ## A data access inside memory, and one that leaves it (R48, R49) -/

theorem faultOf_eq_none_of_data_inside (hn : dataBytes i ≠ 0) (hin : s.i.toNat + (dataBytes i - 1) ≤ 4095) :
    faultOf i s = none := by
  refine Option.eq_none_iff_forall_ne_some.mpr fun c hc => ?_
  rw [faultOf_eq_some_iff] at hc
  -- the data lies inside memory, and every other cause stands for an instruction that accesses no data
  cases c <;> grind [FaultCause.standsFor, dataBytes]

theorem exec_faults_of_data_outside (hn : dataBytes i ≠ 0) (hout : 4095 < s.i.toNat + (dataBytes i - 1)) :
    ∃ t, exec i s = .next t ∧ FaultedAt (.memOutOfRange (max s.i.toNat 4096) (encode i)) s t :=
  ⟨_, exec_eq_takeFault (faultOf_eq_some_iff (c := .memOutOfRange _ _).mpr ⟨rfl, hn, hout, rfl⟩), rfl⟩

/-! ## Stores (R111, R112) -/

/-- Byte `k` of a store lies at `I + k`. -/
theorem byteAt_completed_dataAddr (hwf : s.mem.wf = true) (hf : faultOf i s = none) {k : Nat}
    (hk : k < (bytesStored i s).length) :
    (completed i s).mem.byteAt (s.dataAddr k) = (bytesStored i s)[k] := by
  rw [completed_mem, Memory.byteAt_putAll hwf (bytesStored_fits hf), State.dataAddr, if_pos (by omega),
    Nat.add_sub_cancel_left, List.getD_eq_getElem _ _ hk]

/-- A store of `n + 1` bytes changes no byte outside `I` to `I + n`. -/
theorem completed_memSameExcept (hwf : s.mem.wf = true) (hf : faultOf i s = none) {n : Nat}
    (hn : (bytesStored i s).length = n + 1) :
    MemSameExcept (fun a => s.dataAddr 0 ≤ a ∧ a ≤ s.dataAddr n) s (completed i s) := by
  intro a ha
  simp only [State.dataAddr] at ha
  rw [completed_mem, Memory.byteAt_putAll hwf (bytesStored_fits hf), if_neg (by omega)]

theorem map_toNat_bcdDigits (v : Byte) :
    (bcdDigits v).map BitVec.toNat = [v.toNat / 100, v.toNat / 10 % 10, v.toNat % 10] := by
  have := v.isLt
  simp only [bcdDigits, List.map_cons, List.map_nil, BitVec.toNat_ofNat, List.cons.injEq, and_true]
  omega

theorem toNat_byteAt_completed_ldB (hwf : s.mem.wf = true) (hf : faultOf (.ldB x) s = none) {k : Nat} (hk : k < 3) :
    ((completed (.ldB x) s).mem.byteAt (s.dataAddr k)).toNat =
      [(s.v x).toNat / 100, (s.v x).toNat / 10 % 10, (s.v x).toNat % 10][k] := by
  rw [byteAt_completed_dataAddr hwf hf hk]
  simp only [bytesStored, ← map_toNat_bcdDigits, List.getElem_map]

/-! ## Block loads (R113) -/

theorem v_completed_ldLoad (x k : RegIdx) (s : State) :
    (completed (.ldLoad x) s).v k = if k.val ≤ x.val then s.mem.byteAt (s.dataAddr k.val) else s.v k := by
  rw [completed, State.v_advance]
  split_ifs with hk
  · rw [State.v_loadRegs, List.getD_eq_getElem _ _ (by simpa using Nat.lt_succ_of_le hk)]
    simp [State.dataAddr]
  · exact v_loadRegs_of_length_le (by simpa using hk)

/-- A load that gives every register the byte that it already has is a step to the next instruction. -/
theorem completed_ldLoad_eq_advance (h : ∀ k, (completed (.ldLoad x) s).v k = s.v k) :
    completed (.ldLoad x) s = s.advance := by
  have hregs : (completed (.ldLoad x) s).regs = s.regs := Vector.ext fun j hj => h ⟨j, hj⟩
  calc completed (.ldLoad x) s = { s with regs := (completed (.ldLoad x) s).regs }.advance := rfl
    _ = s.advance := by rw [hregs]

theorem v_completed_ldLoad_ldStore (hwf : s.mem.wf = true) (hfit : s.i.toNat + x.val ≤ 4095) (k : RegIdx) :
    (completed (.ldLoad x) (completed (.ldStore x) s)).v k = s.v k := by
  rw [v_completed_ldLoad]
  split_ifs with hk
  · exact byteAt_completed_ldStore hwf hfit hk
  · rfl

end Sys2Proof.Machine

open Sys2Proof Sys2Proof.Machine

/-- Settles O45: the digits are the three bytes of a store, and the fault is that of any block that leaves memory. -/
theorem bcdStoresThreeDigits : Obligations.BcdStoresThreeDigits := by
  refine fun x s hwf => ⟨fun hin => ?_, exec_faults_of_data_outside (i := .ldB x) (Nat.succ_ne_zero _)⟩
  have hf : faultOf (.ldB x) s = none := faultOf_eq_none_of_data_inside (Nat.succ_ne_zero _) hin
  exact ⟨_, exec_eq_completed hf, toNat_byteAt_completed_ldB hwf hf (k := 0) (by decide),
    toNat_byteAt_completed_ldB hwf hf (k := 1) (by decide), toNat_byteAt_completed_ldB hwf hf (k := 2) (by decide),
    completed_memSameExcept hwf hf rfl, rfl⟩

/-- Settles O46: register `k` is byte `k` of a store of `x + 1` bytes. -/
theorem blockStore : Obligations.BlockStore := by
  refine fun x s hwf => ⟨fun hin => ?_, exec_faults_of_data_outside (i := .ldStore x) (Nat.succ_ne_zero _)⟩
  have hf : faultOf (.ldStore x) s = none := faultOf_ldStore_eq_none.mpr hin
  exact ⟨_, exec_eq_completed hf, fun _ => byteAt_completed_ldStore hwf hin,
    completed_memSameExcept hwf hf (s.length_regBlock x), rfl⟩

/-- Settles O47: a load that completes writes the registers up to `x` and `pc` alone. -/
theorem blockLoad : Obligations.BlockLoad := by
  refine fun x s => ⟨fun hin => ?_, exec_faults_of_data_outside (i := .ldLoad x) (Nat.succ_ne_zero _)⟩
  have hf : faultOf (.ldLoad x) s = none := faultOf_eq_none_of_data_inside (Nat.succ_ne_zero _) hin
  exact ⟨_, exec_eq_completed hf, fun k => v_completed_ldLoad x k s, rfl,
    onlyRegs_with_regs_pc (completed_regs (i := .ldLoad x))⟩

/-- Settles O48: the store leaves `I`, so the load completes too, and it reads back what the registers hold. -/
theorem loadAfterStoreRestores : Obligations.LoadAfterStoreRestores := by
  intro x s t u hwf hin hstore hload
  rw [exec_eq_completed (faultOf_ldStore_eq_none.mpr hin)] at hstore
  obtain rfl : completed (.ldStore x) s = t := by injection hstore
  have hf : faultOf (.ldLoad x) (completed (.ldStore x) s) = none :=
    faultOf_eq_none_of_data_inside (Nat.succ_ne_zero _) hin
  rw [exec_eq_completed hf] at hload
  obtain rfl : completed (.ldLoad x) (completed (.ldStore x) s) = u := by injection hload
  have hv := v_completed_ldLoad_ldStore hwf hin
  exact ⟨completed_ldLoad_eq_advance hv, hv⟩

/-- Settles O43: neither can fault, and `I` is the one piece that they write beside `pc`. -/
theorem indexLoadAndAdd : Obligations.IndexLoadAndAdd := by
  refine fun nnn x s => ⟨⟨_, exec_eq_completed (faultOf_eq_none_of_canFault rfl), zextAddr_toNat nnn, rfl, fun _ => rfl⟩,
    ⟨_, exec_eq_completed (faultOf_eq_none_of_canFault rfl), ?_, rfl, fun _ => rfl⟩⟩
  calc (s.i + (s.v x).setWidth 16).toNat
      = (s.i.toNat + ((s.v x).setWidth 16).toNat) % 65536 := BitVec.toNat_add _ _
    _ = (s.i.toNat + (s.v x).toNat) % 65536 := by rw [BitVec.toNat_setWidth_of_le (by decide)]

/-- Settles O44: up to 15 the address `5 * d` fits 16 bits, and above it the fault of R110 stands. -/
theorem fontAddressOfDigit : Obligations.FontAddressOfDigit := by
  refine fun x s => ⟨fun hd => ?_, fun hd => ⟨_, exec_eq_takeFault (if_pos hd), rfl⟩⟩
  have hfit : 5 * (s.v x).toNat < 2 ^ 16 := by omega
  exact ⟨_, exec_eq_completed (faultOf_ldF_eq_none.mpr (Nat.lt_succ_of_le hd)),
    (BitVec.toNat_ofNat _ _).trans (Nat.mod_eq_of_lt hfit), rfl, fun _ => rfl⟩
end

section
open Sys2Proof Sys2Proof.Machine

/-- Settles O50: reading the delay timer is one register write, and writing it leaves all but `DT` and `pc`. -/
theorem delayTimerCopies : Obligations.DelayTimerCopies := fun x s =>
  ⟨exec_writes_of_setV (i := .ldVxDt x) (b := s.dt) rfl rfl,
    ⟨_, exec_eq_completed (faultOf_eq_none_of_canFault (i := .ldDtVx x) rfl), rfl, rfl, fun _ => rfl⟩⟩
end

section
/-! SUPPORT. What `DRW` does, cell by cell: it flips the distinct cells that its sprite covers, and `VF` is 1 exactly when
one of them was set (R118, R119). -/

namespace Sys2Proof.Machine

variable {s t : State} {x y : RegIdx} {n : Fin 16} {k : Fin 2048}

/-! ## The cells of a sprite -/

/-- Within 32 rows and 64 columns, no two pixels of a sprite lie on one cell (R119). -/
theorem cellAt_inj {px py r r' c c' : Nat} (hr : r < 32) (hr' : r' < 32) (hc : c < 64) (hc' : c' < 64)
    (h : cellAt (px + c) (py + r) = cellAt (px + c') (py + r')) : r = r' ∧ c = c' := by
  have hval := congrArg Fin.val h
  simp only [cellAt_val] at hval
  omega

/-- A sprite covers a cell exactly when it has a set bit. -/
theorem exists_spriteCovers_iff {rows : List Byte} {px py : Nat} :
    (∃ k, SpriteCovers rows px py k) ↔ ∃ row ∈ rows, row ≠ 0 := by
  constructor
  · rintro ⟨k, r, hr, c, -, hbit, -⟩
    refine ⟨rows[r], List.getElem_mem hr, fun hzero => ?_⟩
    simp [hzero] at hbit
  · rintro ⟨row, hrow, hne⟩
    obtain ⟨r, hr, rfl⟩ := List.getElem_of_mem hrow
    obtain ⟨b, hb, hbit⟩ : ∃ b < 8, rows[r].getLsbD b = true := by
      by_contra hnone
      exact hne (BitVec.eq_of_getLsbD_eq fun b hb => by simpa using fun hbit => hnone ⟨b, hb, hbit⟩)
    exact ⟨cellAt (px + (7 - b)) (py + r), r, hr, 7 - b, by omega, by rwa [show 7 - (7 - b) = b by omega], rfl⟩

/-- The cells that `DRW Vx, Vy, n` covers with a set bit; `drwCanvas_eq_foldl` ties it to the model. -/
def drwCells (s : State) (x y : RegIdx) (n : Fin 16) : List (Fin 2048) :=
  spriteCells (s.v x).toNat (s.v y).toNat ((List.range n.val).map fun r => s.mem.byteAt (s.dataAddr r))

theorem mem_drwCells : k ∈ drwCells s x y n ↔
    SpriteCovers ((List.range n.val).map fun r => s.mem.byteAt (s.dataAddr r)) (s.v x).toNat (s.v y).toNat k :=
  mem_spriteCells _ _ _ _

theorem drwCells_nodup : (drwCells s x y n).Nodup :=
  spriteCells_nodup _ _ _ (by simp only [List.length_map, List.length_range]; omega)

theorem drwCells_zero : drwCells s x y 0 = [] := rfl

theorem exists_mem_drwCells : (∃ k, k ∈ drwCells s x y n) ↔ ∃ r < n.val, s.mem.byteAt (s.dataAddr r) ≠ 0 := by
  simp only [mem_drwCells, exists_spriteCovers_iff, List.mem_map, List.mem_range, exists_exists_and_eq_and]

/-- Where the origin has not moved, a `DRW` covers after a `DRW` the cells that it covered before. -/
theorem drwCells_completed_drw (hx : (completed (.drw x y n) s).v x = s.v x) (hy : (completed (.drw x y n) s).v y = s.v y) :
    drwCells (completed (.drw x y n) s) x y n = drwCells s x y n := by
  rw [drwCells, hx, hy]
  rfl

/-! ## Drawing them -/

theorem drwCanvas_eq_foldl : drwCanvas s x y n = (drwCells s x y n).foldl Canvas.plot ⟨s.display, false⟩ :=
  Canvas.drawRows_eq_foldl _ _ _ _

theorem faultOf_drw_eq_none (h : n.val = 0 ∨ s.i.toNat + n.val ≤ 4096) : faultOf (.drw x y n) s = none := by
  by_cases hn : n.val = 0
  · simp [faultOf, dataBytes, hn]
  · exact faultOf_eq_none_of_data_inside hn (by simp only [dataBytes]; omega)

theorem eq_completed_drw (hin : n.val = 0 ∨ s.i.toNat + n.val ≤ 4096) (h : exec (.drw x y n) s = .next t) :
    t = completed (.drw x y n) s := by
  rw [exec_eq_completed (faultOf_drw_eq_none hin)] at h
  injection h with h
  exact h.symm

theorem cell_completed_drw :
    (completed (.drw x y n) s).display.cell k = (s.display.cell k ^^ decide (k ∈ drwCells s x y n)) := by
  calc (completed (.drw x y n) s).display.cell k
      = (drwCanvas s x y n).display.cell k := rfl
    _ = (s.display.cell k ^^ decide (k ∈ drwCells s x y n)) := by
      rw [drwCanvas_eq_foldl, Canvas.foldl_plot_cell drwCells_nodup]

theorem flagByte_eq_one_iff {c : Bool} : flagByte c = 1 ↔ c = true := by cases c <;> decide

theorem flagByte_eq_zero_iff {c : Bool} : flagByte c = 0 ↔ c = false := by cases c <;> decide

theorem vF_completed_drw : (completed (.drw x y n) s).v regF = flagByte (drwCanvas s x y n).collision := by
  simp [completed]

theorem drwCanvas_collision : (drwCanvas s x y n).collision = true ↔ ∃ k ∈ drwCells s x y n, s.display.cell k = true := by
  simp [drwCanvas_eq_foldl, Canvas.foldl_plot_collision drwCells_nodup]

/-- `DRW` reports a collision exactly when it covers a cell that was 1. -/
theorem vF_completed_drw_eq_one :
    (completed (.drw x y n) s).v regF = 1 ↔ ∃ k ∈ drwCells s x y n, s.display.cell k = true := by
  rw [vF_completed_drw, flagByte_eq_one_iff, drwCanvas_collision]

/-- `DRW` clears `VF` exactly when every cell that it covers was 0. -/
theorem vF_completed_drw_eq_zero :
    (completed (.drw x y n) s).v regF = 0 ↔ ∀ k ∈ drwCells s x y n, s.display.cell k = false := by
  rw [vF_completed_drw, flagByte_eq_zero_iff, ← Bool.not_eq_true, drwCanvas_collision]
  simp

/-- A second draw of the same sprite finds each of its cells flipped, so it collides where a cell was 0 before the first. -/
theorem vF_completed_drw_twice (hcells : drwCells (completed (.drw x y n) s) x y n = drwCells s x y n) :
    (completed (.drw x y n) (completed (.drw x y n) s)).v regF = 1 ↔ ∃ k ∈ drwCells s x y n, s.display.cell k = false := by
  rw [vF_completed_drw_eq_one, hcells]
  refine exists_congr fun k => and_congr_right fun hk => ?_
  simp [cell_completed_drw, hk]

end Sys2Proof.Machine

open Sys2Proof Sys2Proof.Machine

/-- Settles O54: the covered cells are distinct, so each of them is flipped once, and the fault is that of any block that
leaves memory. -/
theorem drwFlipsCoveredCells : Obligations.DrwFlipsCoveredCells := by
  refine fun x y n s => ⟨fun hin => ?_, fun hn hout => exec_faults_of_data_outside hn (by simp only [dataBytes]; omega)⟩
  refine ⟨_, exec_eq_completed (faultOf_drw_eq_none hin), fun k => ?_, ?_, ?_, completed_regs (i := .drw x y n),
    fun _ => rfl, rfl⟩
  · rw [cell_completed_drw, ← mem_drwCells]
    by_cases hk : k ∈ drwCells s x y n <;> simp [hk]
  · rw [vF_completed_drw, flagByte_eq_one_iff, flagByte_eq_zero_iff]
    exact Bool.eq_false_or_eq_true _
  · rw [vF_completed_drw_eq_one]
    refine exists_congr fun k => ?_
    rw [cell_completed_drw, and_comm]
    refine and_congr_right fun hset => ?_
    simp [hset]

/-- Settles O55: each law is about the distinct cells that a `DRW` flips, and two flips of a cell leave it as it was. -/
theorem drwLaws : Obligations.DrwLaws := by
  refine ⟨fun x y s t h => ?_, fun cx cy r r' c c' hr hr' hc hc' => ?_, fun x y n s t u hin h hx hy hu => ?_,
    fun x y n s t hin hclear h => ?_⟩
  · obtain rfl := eq_completed_drw (.inl rfl) h
    refine ⟨fun k => ?_, vF_completed_drw_eq_zero.mpr ?_⟩
    · simp [cell_completed_drw, drwCells_zero]
    · simp [drwCells_zero]
  · exact cellAt_inj (by omega) (by omega) (by omega) (by omega)
  · obtain rfl := eq_completed_drw hin h
    obtain rfl := eq_completed_drw (s := completed (.drw x y n) s) hin hu
    have hcells := drwCells_completed_drw hx hy
    refine ⟨fun k => ?_, ?_, fun hclear => ?_⟩
    · rw [cell_completed_drw, hcells, cell_completed_drw, Bool.xor_assoc, Bool.xor_self, Bool.xor_false]
    · simp only [vF_completed_drw_twice hcells, mem_drwCells, and_comm]
    · simp only [vF_completed_drw_twice hcells, hclear, and_true, exists_mem_drwCells]
  · obtain rfl := eq_completed_drw hin h
    exact vF_completed_drw_eq_zero.mpr fun k _ => hclear k

/-- Settles O53: the display is the one piece that `CLS` writes beside `pc`. -/
theorem clsZeroesDisplay : Obligations.ClsZeroesDisplay := fun _ =>
  ⟨_, exec_eq_completed (faultOf_eq_none_of_canFault (i := .cls) rfl), Display.cell_clear, rfl, fun _ => rfl⟩
end

section
/-! SUPPORT. Serializing and restoring (R138, R139): the serialized form of a State is well formed, and each piece of the
State is read back from the numbers that stand for it. -/

namespace Sys2Proof.Machine

variable {s : State}

/-! ## The serialized form meets R36 -/

/-- Every clause of R36 but the bound on the stack holds of the numbers by the types of the fields. -/
theorem wf_serialize (hs : s.wf = true) : s.serialize.wf = true := by
  obtain ⟨-, hstack⟩ := Bool.and_eq_true_iff.mp hs
  have hbyte (b : Byte) : b.toNat < 256 := b.isLt
  have hword (w : Word) : w.toNat < 65536 := w.isLt
  simp [Snapshot.wf, State.serialize, hbyte, hword, Bool.toNat_le, hstack]

/-! ## Each piece is read back -/

/-- A canonical memory lists no address outside 0x000 to 0xFFF. -/
theorem Memory.byteAt_of_ge {m : Memory} {lo k : Nat} (h : m.wfFrom lo = true) (hk : Config.memSize ≤ k) :
    m.byteAt k = 0 := by
  induction m generalizing lo with
  | nil => rfl
  | cons c m ih =>
    obtain ⟨a, b⟩ := c
    obtain ⟨-, ha, -, hm⟩ := Memory.wfFrom_cons.mp h
    rw [Memory.byteAt_cons, if_neg (by omega), ih hm]

/-- The 4096 bytes of a canonical memory, listed from address 0, give that memory again. -/
theorem Memory.ofBytes_map_byteAt {m : Memory} (h : m.wf = true) :
    Memory.ofBytes 0 ((List.range Config.memSize).map m.byteAt) = m := by
  refine Memory.eq_of_byteAt_eq (Memory.ofBytes_wfFrom 0 _ (by simp)) h fun k => ?_
  simp only [Memory.byteAt_ofBytes, Nat.zero_le, if_true, Nat.sub_zero]
  by_cases hk : k < Config.memSize
  · rw [List.getD_eq_getElem _ _ (by simpa using hk), List.getElem_map, List.getElem_range]
  · rw [List.getD_eq_default _ _ (by simpa using hk), Memory.byteAt_of_ge h (not_lt.mp hk)]

theorem ofBytes_serialize_memory (h : s.mem.wf = true) :
    Memory.ofBytes 0 (s.serialize.memory.map (BitVec.ofNat 8)) = s.mem := by
  have hbytes : s.serialize.memory.map (BitVec.ofNat 8) = (List.range Config.memSize).map s.mem.byteAt := by
    simp [State.serialize, Function.comp_def, Config.memSize]
  rw [hbytes, Memory.ofBytes_map_byteAt h]

theorem ofFn_serialize_v :
    (Vector.ofFn fun k : RegIdx => BitVec.ofNat 8 (s.serialize.v.getD k.val 0)) = s.regs := by
  refine Vector.ext fun k hk => ?_
  simp [State.serialize]

theorem ofCells_serialize_display : Display.ofCells s.serialize.display = s.display := by
  refine Display.ext_cell fun k => ?_
  have hk : s.serialize.display.getD k.val 0 = (s.display.cell k).toNat := by simp [State.serialize]
  rw [Display.cell_ofCells, hk]
  cases s.display.cell k <;> rfl

/-- Restoring a serialized State gives it back, beside the fault mark and the inputs, which stay as they are (R139). -/
theorem State.restore_serialize (hs : s.wf = true) (u : State) : u.restore s.serialize =
    { s with fault := u.fault, keys := u.keys, draw := u.draw, cycleNo := u.cycleNo } := by
  rw [State.restore, ofBytes_serialize_memory (State.wf_iff.mp hs), ofFn_serialize_v, ofCells_serialize_display]
  simp [State.serialize, Function.comp_def]

theorem hostAct_restore_of_wf {p : Snapshot} (h : p.wf = true) (u : State) :
    hostAct (.restore p) u = .next (u.restore p) := if_pos h

theorem hostAct_restore_of_not_wf {p : Snapshot} (h : p.wf = false) (u : State) :
    hostAct (.restore p) u = .refused .illFormedSnapshot := if_neg (by simp [h])

end Sys2Proof.Machine

open Sys2Proof Sys2Proof.Machine

/-- Settles O59: the serialized form is well formed, so it is accepted, and each piece of the State is read back from its
numbers; the memory because its canonical form is the only one with its bytes. -/
theorem restoreOfSerializeIsIdentity : Obligations.RestoreOfSerializeIsIdentity := by
  refine ⟨fun s u hs => ?_, fun p u hp => ?_⟩
  · rw [hostAct_restore_of_wf (wf_serialize hs), State.restore_serialize hs]
  · have hact := hostAct_restore_of_not_wf hp u
    exact ⟨hact, by rw [afterHost, hact]⟩
end

section
/-! SUPPORT. What a step takes from outside the State (R124, R127, R132): no fault depends on an input of the cycle or on a
timer, and a cycle that completes uses the key snapshot and the byte that the host passes. -/

namespace Sys2Proof.Machine

variable {s t : State} {op : Word} {i : Instr} {x : RegIdx}

theorem step_fault_eq_some_iff (h : step s = .next t) (r : FaultRecord) : t.fault = some r ↔ r.justified s := by
  obtain ⟨hr, -⟩ := faultsArePreciseAndJustified s t h
  exact hr r

/-- Justification reads no input of the cycle and no timer (R122, R124). -/
theorem justified_with_inputs_timers (r : FaultRecord) (keys : Keys) (draw dt st : Byte) :
    r.justified { s with keys := keys, draw := draw, dt := dt, st := st } ↔ r.justified s := Iff.rfl

/-- A step of a running core on an illegal word records it at `pc` and changes nothing else (R70, R121). -/
theorem step_of_reject {why : Reject} (hrun : s.fault = none) (hop : fetchAt s.mem s.pc.toNat = some op)
    (hd : decode op = .reject why) : step s = .next (s.recording ⟨.illegalOpcode op, s.pc⟩) := by
  simp only [step, hrun, hop, hd]
  rfl

theorem completed_skp_pc (hk : (s.v x).toNat < 16) :
    (completed (.skp x) s).pc = s.pc + (if s.keys[(s.v x).toNat] = true then 4 else 2) := by
  simp [completed, State.keyPressed_of_lt s _ hk]

theorem completed_sknp_pc (hk : (s.v x).toNat < 16) :
    (completed (.sknp x) s).pc = s.pc + (if s.keys[(s.v x).toNat] = true then 2 else 4) := by
  cases hkey : s.keys[(s.v x).toNat] <;> simp [completed, State.keyPressed_of_lt s _ hk, hkey]

theorem v_completed_rnd {kk : Byte} : (completed (.rnd x kk) s).v x = s.draw &&& kk := by
  simp [completed]

/-- A cycle whose instruction raises no fault leaves what it completes to with the inputs that the host passes (R138). -/
theorem hostAct_cycle_of_instr {keys : Keys} {draw : Byte} (hrun : s.fault = none)
    (hop : fetchAt s.mem s.pc.toNat = some op) (hd : decode op = .instr i)
    (hf : faultOf i { s with keys := keys, draw := draw } = none) :
    hostAct (.cycle keys draw) s = .next (completed i { s with keys := keys, draw := draw }).freshInputs := by
  rw [hostAct, step_of_instr (s := { s with keys := keys, draw := draw }) hrun hop hd, exec_eq_completed hf, finishCycle]

end Sys2Proof.Machine

open Sys2Proof Sys2Proof.Machine

/-- Settles O18: the instruction completes, or it takes the fault that `faultOf` names, and either is a next state. -/
theorem execAlwaysAnswersNext : Obligations.ExecAlwaysAnswersNext := exists_exec_eq_next

/-- Settles O20: both steps record exactly the records that are justified before them, and those are the same. -/
theorem faultsDependOnStateOnly : Obligations.FaultsDependOnStateOnly := by
  intro s t u keys draw dt st ht hu
  refine Option.ext fun r => ?_
  rw [step_fault_eq_some_iff hu, step_fault_eq_some_iff ht, justified_with_inputs_timers]

/-- Settles O16: the fetch answers the word, and the decoder comes before any meaning of it. -/
theorem illegalWordFaults : Obligations.IllegalWordFaults := fun _ _ hrun hop hd =>
  ⟨_, step_of_reject hrun hop hd, rfl⟩

/-- Settles O51: a tick takes one from a byte that is not 0, and it writes the two timers alone. -/
theorem tickCountsDownToZero : Obligations.TickCountsDownToZero := fun s =>
  ⟨s.tick, rfl, toNat_tick s.dt, toNat_tick s.st, rfl⟩

/-- Settles O60: the completed state of `SKP`, `SKNP` and `RND` reads the inputs of the state that the cycle starts in,
and those are the host's. -/
theorem cycleUsesHostInputs : Obligations.CycleUsesHostInputs := by
  refine fun s keys draw x op hrun hop => ⟨fun hk hd => ?_, fun hk hd => ?_, fun kk hd => ?_⟩
  · exact ⟨_, hostAct_cycle_of_instr hrun hop hd (faultOf_skp_eq_none.mpr hk),
      completed_skp_pc (s := { s with keys := keys, draw := draw }) hk⟩
  · exact ⟨_, hostAct_cycle_of_instr hrun hop hd (faultOf_sknp_eq_none.mpr hk),
      completed_sknp_pc (s := { s with keys := keys, draw := draw }) hk⟩
  · exact ⟨_, hostAct_cycle_of_instr hrun hop hd (faultOf_eq_none_of_canFault rfl), v_completed_rnd⟩
end

section
/-! SUPPORT. Loading and booting (R142 to R146): each byte after the font is loaded and after an image is, and the launch
predicate of a reset State that is given both. -/

namespace Sys2Proof.Machine

variable {s : State} {m : Memory} {font : Config.Font} {bytes : List Byte} {a j : Nat}

/-! ## A block put inside memory -/

theorem Memory.byteAt_putAll_add (hwf : m.wf = true) (hfit : a + bytes.length ≤ Config.memSize) (hj : j < bytes.length) :
    (m.putAll a bytes).byteAt (a + j) = bytes[j] := by
  rw [Memory.byteAt_putAll hwf (.inr hfit), if_pos (by omega), Nat.add_sub_cancel_left, List.getD_eq_getElem _ _ hj]

theorem Memory.byteAt_putAll_of_outside (hwf : m.wf = true) (hfit : a + bytes.length ≤ Config.memSize)
    (hj : ¬(a ≤ j ∧ j < a + bytes.length)) : (m.putAll a bytes).byteAt j = m.byteAt j := by
  rw [Memory.byteAt_putAll hwf (.inr hfit), if_neg hj]

/-! ## The font (R142) -/

theorem font_fits : 0 + font.toList.length ≤ Config.memSize := by simp [Config.memSize]

theorem loadCharset_mem_wf (hwf : s.mem.wf = true) : (s.loadCharset font).mem.wf = true :=
  Memory.putAll_wf hwf (.inr font_fits)

theorem byteAt_loadCharset_of_lt (hwf : s.mem.wf = true) (hj : j < 80) : (s.loadCharset font).mem.byteAt j = font[j] := by
  have hbyte := Memory.byteAt_putAll_add hwf (font_fits (font := font)) (j := j) (by simpa using hj)
  rwa [Nat.zero_add, Vector.getElem_toList] at hbyte

theorem byteAt_loadCharset_of_ge (hwf : s.mem.wf = true) (hj : 80 ≤ j) :
    (s.loadCharset font).mem.byteAt j = s.mem.byteAt j :=
  Memory.byteAt_putAll_of_outside hwf font_fits (by simpa using hj)

/-! ## The program image (R144) -/

theorem image_fits (hlen : bytes.length ≤ Config.romMax) : Config.romBase + bytes.length ≤ Config.memSize :=
  Nat.add_le_add_left hlen Config.romBase

theorem byteAt_loadRom_add (hwf : s.mem.wf = true) (hlen : bytes.length ≤ Config.romMax) (hj : j < bytes.length) :
    (s.loadRom bytes).mem.byteAt (Config.romBase + j) = bytes[j] :=
  Memory.byteAt_putAll_add hwf (image_fits hlen) hj

theorem byteAt_loadRom_of_outside (hwf : s.mem.wf = true) (hlen : bytes.length ≤ Config.romMax)
    (hj : ¬(Config.romBase ≤ j ∧ j < Config.romBase + bytes.length)) :
    (s.loadRom bytes).mem.byteAt j = s.mem.byteAt j :=
  Memory.byteAt_putAll_of_outside hwf (image_fits hlen) hj

theorem hostAct_loadRom_of_le (hlen : bytes.length ≤ Config.romMax) : hostAct (.loadRom bytes) s = .next (s.loadRom bytes) :=
  if_pos hlen

theorem hostAct_loadRom_of_gt (hlen : Config.romMax < bytes.length) :
    hostAct (.loadRom bytes) s = .refused (.romTooLong bytes.length) :=
  if_neg (not_le.mpr hlen)

theorem afterHost_of_next {act : HostAction} {t : State} (h : hostAct act s = .next t) : afterHost s act = t := by
  rw [afterHost, h]

theorem afterHost_of_refused {act : HostAction} {why : Refusal} (h : hostAct act s = .refused why) :
    afterHost s act = s := by
  rw [afterHost, h]

/-! ## The boot order (R145, R146) -/

/-- The three actions of the boot order, as one state. -/
theorem hostRun_bootActions (hlen : bytes.length ≤ Config.romMax) :
    hostRun s (bootActions font bytes) =
      (State.loadCharset { State.reset with keys := s.keys, draw := s.draw, cycleNo := s.cycleNo } font).loadRom bytes :=
  afterHost_of_next (hostAct_loadRom_of_le hlen)

/-- The image lies above the font, so neither load overwrites the other, and no load writes anything but memory. -/
theorem boot_of_resetValues (hreset : ResetValues s) (hwf : s.mem.wf = true) (hlen : bytes.length ≤ Config.romMax) :
    Boot font bytes ((s.loadCharset font).loadRom bytes) where
  pc := hreset.pc
  regs := hreset.regs
  i := hreset.i
  stack := hreset.stack
  display := hreset.display
  dt := hreset.dt
  st := hreset.st
  fault := hreset.fault
  fontBytes j hj := by
    rw [byteAt_loadRom_of_outside (loadCharset_mem_wf hwf) hlen (by rw [Config.romBase]; omega),
      byteAt_loadCharset_of_lt hwf hj]
  romBytes _ hj := byteAt_loadRom_add (loadCharset_mem_wf hwf) hlen hj
  otherBytes a hfont hrom := by
    rw [byteAt_loadRom_of_outside (loadCharset_mem_wf hwf) hlen (by rw [Config.romBase]; omega),
      byteAt_loadCharset_of_ge hwf hfont, hreset.mem]

end Sys2Proof.Machine

open Sys2Proof Sys2Proof.Machine

/-- Settles O58: the state that the boot order starts from no longer matters after its reset, and the two loads fill
disjoint parts of the zeroed memory. -/
theorem bootEstablishesLaunchState : Obligations.BootEstablishesLaunchState := by
  intro font bytes s hlen
  rw [hostRun_bootActions hlen]
  exact boot_of_resetValues { resetValues_reset with } rfl hlen

/-- Settles O56: the 80 bytes put at 0x000 read back as the font, and no other byte changes. -/
theorem loadCharsetCopiesFont : Obligations.LoadCharsetCopiesFont := fun font s hwf =>
  ⟨s.loadCharset font, rfl, fun _ hj => byteAt_loadCharset_of_lt hwf hj,
    fun _ ha => byteAt_loadCharset_of_ge hwf (not_lt.mp ha), rfl⟩

/-- Settles O57: an image of up to 3584 bytes ends inside memory, so each byte of it reads back; a longer one is not
accepted. -/
theorem loadRomCopiesImage : Obligations.LoadRomCopiesImage := by
  refine fun bytes s hwf => ⟨fun hlen => ?_, fun hlen => ?_⟩
  · exact ⟨s.loadRom bytes, hostAct_loadRom_of_le hlen, fun _ hj => byteAt_loadRom_add hwf hlen hj,
      fun _ ha => byteAt_loadRom_of_outside hwf hlen ha, rfl⟩
  · have hrefused := hostAct_loadRom_of_gt (s := s) hlen
    exact ⟨hrefused, afterHost_of_refused hrefused⟩
end
